-- ==== Sys2Proof/Word.lean ====
section
/-! DEFINITION. The widths of the values the block handles (00_scope.md R13). Every wire, buffer and payload element is a byte; the PGN has
24 bits; the encoder's priority has 3 bits. Lengths and indices are unbounded naturals. -/

namespace Sys2Proof

/-- A wire, buffer or payload element, and every 8-bit field (R13). -/
abbrev Byte := BitVec 8

/-- A ParameterGroupNumber: 24 bits, unsigned (R13). -/
abbrev Pgn := BitVec 24

/-- The encoder's priority input: 3 bits, so a value above 7 cannot be expressed (R134). -/
abbrev Pri := BitVec 3

end Sys2Proof
end

