-- ==== Sys2Proof/Config.lean ====
section
/-! DEFINITION. What the spec fixes for every block (00_scope.md R11), the four instantiation parameters (R12) and the model's free value. -/

namespace Sys2Proof

namespace Config

/-- ESC: the escape byte, first byte of both markers, doubled when stuffed (R11). -/
abbrev esc : Byte := 0x10#8
/-- STX: the second byte of the start marker (R11). -/
abbrev stx : Byte := 0x02#8
/-- ETX: the second byte of the end marker (R11). -/
abbrev etx : Byte := 0x03#8
/-- TYPE_OUT: the outbound data frame's type byte (R11). -/
abbrev typeOut : Byte := 0x94#8
/-- TYPE_IN: the inbound data frame's type byte (R11). -/
abbrev typeIn : Byte := 0x93#8
/-- DATA_CAP: the capacity of Message Data, the largest legal DataLength (R11). -/
abbrev dataCap : Nat := 223
/-- HDR_IN: inbound payload bytes before Data (R11). In the decode input two more stand before them (R62). -/
abbrev hdrIn : Nat := 11
/-- HDR_OUT: outbound payload bytes before Data (R11). In the decode input two more stand before them (R63). -/
abbrev hdrOut : Nat := 6
/-- BROADCAST: a Destination value; the block gives it no special treatment (R11, R76). -/
abbrev broadcast : Byte := 255#8

/-- FREE VALUE (log entry 12, DESIGN CHOICE). The byte RX_PIPELINE names where its operand, not a RawFrame, leaves the unstuffed frame without
that byte: R14 says such a read never happens in a rule, and the spec states no value for it. A function of the unstuffed frame; it has no
body, so nothing can be proved of its value. -/
opaque absentByte : List Byte → Byte

end Config

/-- The four instantiation parameters (R12), fixed for a run (R32). The docstrings give the source's value, the default. -/
structure Params where
  /-- P_ESC_TX_ALL: `false`, the encoder doubles only a checksum equal to ESC; `true`, every ESC byte of the span. -/
  escTxAll : Bool
  /-- P_ESC_AWARE_SCAN: `false`, the first `ESC ETX` ends the frame; `true`, the end scan walks escape pairs. -/
  escAwareScan : Bool
  /-- P_KEEP_TAIL_ESC: `false`, the buffer is cleared entirely when no start marker is found; `true`, a final ESC is kept. -/
  keepTailEsc : Bool
  /-- P_BUF_CAP: `none`, the buffer is unbounded; `some c`, a buffer longer than c after a drain is discarded. -/
  bufCap : Option Nat
  deriving DecidableEq, Repr

/-- The defaults, which reproduce the source behaviour (R12). -/
def Params.source : Params :=
  { escTxAll := false, escAwareScan := false, keepTailEsc := false, bufCap := none }

end Sys2Proof
end

