-- ==== Sys2Proof/Syntax.lean ====
section
/-! DEFINITION. The block's instructions: one constructor per row of spec/opcode_table.json. The block has no instruction set (00_scope.md R3);
its operations and its wire tokens take that role. Operands are byte sequences, a message to send, or a buffer index (10_state.md R20). -/

namespace Sys2Proof

/-- A Message at the encoder's input (42_codec.md R134): DataLength is no separate input, it is the number of data bytes, and `src` is
ignored. -/
structure Request where
  pri  : Pri
  pgn  : Pgn
  dst  : Byte
  src  : Byte
  data : List Byte
  deriving DecidableEq, Repr

/-- One constructor per row of spec/opcode_table.json (30_encoding.md R56, R57, R68, R69, R74). -/
inductive Instr where
  /-- FEED, code 0x01: one chunk from the transport (R80). -/
  | feed (chunk : List Byte)
  /-- TX_SEND, code 0x02: encode and write one message under the lock (R139). -/
  | txSend (m : Request)
  /-- DRAIN, code 0x10 (R81). -/
  | drain
  /-- START_SCAN, code 0x11 (R82). -/
  | startScan
  /-- END_SCAN_NAIVE, code 0x12; `s` is the index of the start marker in B (R86). -/
  | endScanNaive (s : Nat)
  /-- END_SCAN_AWARE, code 0x13; `s` is the index of the start marker in B (R87). -/
  | endScanAware (s : Nat)
  /-- RX_PIPELINE, code 0x14; `f` is an extracted RawFrame (R125). -/
  | rxPipeline (f : List Byte)
  /-- DESTUFF, code 0x15; `sp` is a stuffed span (R110). -/
  | destuff (sp : List Byte)
  /-- CKSUM_VERIFY, code 0x16; `u` is an unstuffed frame, checksum last (R116). -/
  | cksumVerify (u : List Byte)
  /-- DECODE_93, code 0x17; `d` is a decode input of type 0x93 (R128). -/
  | decode93 (d : List Byte)
  /-- DECODE_94, code 0x18; `d` is a decode input of type 0x94 (R129). -/
  | decode94 (d : List Byte)
  /-- ENCODE, code 0x20 (R135). -/
  | encode (m : Request)
  /-- CKSUM_COMPUTE, code 0x21 (R115). -/
  | cksumCompute (x : List Byte)
  /-- STUFF, code 0x22 (R112). -/
  | stuff (x : List Byte)
  /-- ESC_CKSUM, code 0x23 (R113). -/
  | escCksum (c : Byte)
  /-- TX_WRITE, code 0x24; `w` is an encoded wire frame (R138). -/
  | txWrite (w : List Byte)
  /-- START, wire token `10 02` (R56). -/
  | startMark
  /-- END, wire token `10 03` (R56). -/
  | endMark
  /-- ESCESC, wire token `10 10` (R56). -/
  | escEsc
  /-- TYPE_IN, type byte 0x93 with the length byte that follows it (R57, R84; log entry 3). -/
  | typeIn (len : Byte)
  /-- TYPE_OUT, type byte 0x94 with the length byte that follows it (R57, R84; log entry 3). -/
  | typeOut (len : Byte)
  /-- UNRECOGNIZED_TYPE, `10 02 t` with the length byte that follows it (R68, R84; log entry 3). -/
  | unrecognizedType (t len : Byte)
  /-- STRAY_ESC, `10 x` (R69). -/
  | strayEsc (x : Byte)
  deriving DecidableEq, Repr

/-- Which agent an instruction belongs to (30_encoding.md R74, 60_exceptions.md R171). -/
inductive Owner where
  /-- The RX agent, which owns B, st and E. -/
  | rx
  /-- The TX agent, which owns tx_busy. -/
  | tx
  /-- A pure operation both use. -/
  | either
  deriving DecidableEq, Repr

/-- R74's `kind` column; a wire token arrives at the RX agent. -/
def Instr.owner : Instr → Owner
  | .feed _ => .rx
  | .txSend _ => .tx
  | .drain => .rx
  | .startScan => .rx
  | .endScanNaive _ => .rx
  | .endScanAware _ => .rx
  | .rxPipeline _ => .rx
  | .destuff _ => .rx
  | .cksumVerify _ => .rx
  | .decode93 _ => .rx
  | .decode94 _ => .rx
  | .encode _ => .tx
  | .cksumCompute _ => .either
  | .stuff _ => .tx
  | .escCksum _ => .tx
  | .txWrite _ => .tx
  | .startMark => .rx
  | .endMark => .rx
  | .escEsc => .rx
  | .typeIn _ => .rx
  | .typeOut _ => .rx
  | .unrecognizedType _ _ => .rx
  | .strayEsc _ => .rx

end Sys2Proof
end

