-- ==== Sys2Proof/WellFormed.lean ====
section
/-! DEFINITION. What the operand fields of an instruction may hold beyond their widths: the two value restrictions of
spec/opcode_table.json. -/

namespace Sys2Proof

/-- A type byte the synchronizer recognises (30_encoding.md R57). -/
def isRecognized (t : Byte) : Bool := t == Config.typeIn || t == Config.typeOut

/-- UNRECOGNIZED_TYPE holds a type byte other than 0x93 and 0x94 (R57, R68); STRAY_ESC holds a byte other than 0x02, 0x03 and 0x10 (R69);
every other operand is free. -/
def Instr.wellFormed : Instr → Bool
  | .feed _ => true
  | .txSend _ => true
  | .drain => true
  | .startScan => true
  | .endScanNaive _ => true
  | .endScanAware _ => true
  | .rxPipeline _ => true
  | .destuff _ => true
  | .cksumVerify _ => true
  | .decode93 _ => true
  | .decode94 _ => true
  | .encode _ => true
  | .cksumCompute _ => true
  | .stuff _ => true
  | .escCksum _ => true
  | .txWrite _ => true
  | .startMark => true
  | .endMark => true
  | .escEsc => true
  | .typeIn _ => true
  | .typeOut _ => true
  | .unrecognizedType t _ => !isRecognized t
  | .strayEsc x => !(x == Config.stx || x == Config.etx || x == Config.esc)

end Sys2Proof
end

