-- ==== Sys2Proof/Decode.lean ====
section
/-! DEFINITION. Decoding and encoding. The spec numbers the operations (30_encoding.md R74) and gives the wire tokens' bytes (R56, R57, R68,
R69), and leaves open how a code and its operands cross the block's boundary: the transfer format is the model's (log entry 1, DESIGN
CHOICE). One transfer is one byte sequence of known length: an operation code and then its operands, or the bytes of one wire token. -/

namespace Sys2Proof

/-! ### The PGN's byte order (20_memory.md R41) -/

/-- `pgn = zext_24(q0) | (zext_24(q1) << 8) | (zext_24(q2) << 16)` (R41). -/
def pgnOf (q0 q1 q2 : Byte) : Pgn :=
  q0.setWidth 24 ||| (q1.setWidth 24 <<< 8) ||| (q2.setWidth 24 <<< 16)

/-- The three bytes of a PGN in wire order: `pgn[7:0]`, `pgn[15:8]`, `pgn[23:16]` (R41). -/
def pgnBytes (g : Pgn) : List Byte :=
  [g.extractLsb' 0 8, g.extractLsb' 8 8, g.extractLsb' 16 8]

/-! ### The wire decoder table (30_encoding.md R73) -/

/-- Where a byte pair is met (R73): START_SCAN, the naive end scan, or the aware end scan at a pair boundary. -/
inductive ScanContext where
  | searching
  | naive
  | aware
  deriving DecidableEq, Repr

/-- What a byte pair is there (R73). `data`: no token, the scan moves on. -/
inductive PairClass where
  | startMark
  | endMark
  | escEsc
  | stray
  | data
  deriving DecidableEq, Repr

/-- R73's table, one row a branch: `10 02`, `10 03`, `10 10`, `10 xx`, `yy xx`. -/
def classifyPair (k : ScanContext) (a b : Byte) : PairClass :=
  if a = Config.esc then
    if b = Config.stx then
      match k with
      | .searching => .startMark
      | .naive => .data
      | .aware => .stray
    else if b = Config.etx then
      match k with
      | .searching => .data
      | .naive => .endMark
      | .aware => .endMark
    else if b = Config.esc then
      match k with
      | .searching => .data
      | .naive => .data
      | .aware => .escEsc
    else
      match k with
      | .searching => .data
      | .naive => .data
      | .aware => .stray
  else .data

/-! ### Transfers -/

/-- Why a transfer is no instruction. -/
inductive DecodeError where
  /-- A transfer with no byte. -/
  | empty
  /-- A code the spec does not assign (R74). -/
  | unassignedCode (code : Byte)
  /-- The operation's operands are too short or too long. -/
  | operandLength (code : Byte)
  /-- A priority above 7, which the encoder's input cannot express (R134). -/
  | priorityRange (b : Byte)
  /-- A buffer index written with a zero high byte: each index has one form. -/
  | indexForm
  /-- Bytes that begin with ESC and are not one token. -/
  | notOneToken
  deriving DecidableEq, Repr

/-- A buffer index in a transfer: its bytes in base 256, low byte first; `fuel` bounds their number. -/
def indexBytes : Nat → Nat → List Byte
  | 0, _ => []
  | fuel + 1, n => if n = 0 then [] else BitVec.ofNat 8 n :: indexBytes fuel (n / 256)

/-- The index those bytes give; none for 0. -/
def indexOf : List Byte → Nat
  | [] => 0
  | b :: bs => b.toNat + 256 * indexOf bs

/-- A message operand in a transfer: priority, the PGN's three bytes, destination, source, data. -/
def requestBytes (m : Request) : List Byte :=
  m.pri.setWidth 8 :: (pgnBytes m.pgn ++ m.dst :: m.src :: m.data)

/-- Reads a message operand; a priority byte above 7 is refused (R134). -/
def decodeRequest (code : Byte) : List Byte → Except DecodeError Request
  | b :: q0 :: q1 :: q2 :: dst :: src :: data =>
    if b.toNat < 8 then
      .ok { pri := b.setWidth 3, pgn := pgnOf q0 q1 q2, dst := dst, src := src, data := data }
    else .error (.priorityRange b)
  | _ => .error (.operandLength code)

/-- Reads a buffer index operand. -/
def decodeIndex (ops : List Byte) : Except DecodeError Nat :=
  if ops.getLast? = some 0#8 then .error .indexForm else .ok (indexOf ops)

/-- Reads no operand. -/
def decodeNone (code : Byte) (i : Instr) : List Byte → Except DecodeError Instr
  | [] => .ok i
  | _ => .error (.operandLength code)

/-- Reads one operand byte. -/
def decodeOne (code : Byte) (f : Byte → Instr) : List Byte → Except DecodeError Instr
  | [b] => .ok (f b)
  | _ => .error (.operandLength code)

/-- The transfers that begin with 0x10: DRAIN alone (R74), or one wire token (R56, R68, R69). -/
def decodeEsc : List Byte → Except DecodeError Instr
  | [] => .ok .drain
  | [x] =>
    if x = Config.stx then .ok .startMark
    else if x = Config.etx then .ok .endMark
    else if x = Config.esc then .ok .escEsc
    else .ok (.strayEsc x)
  | [y, t, len] =>
    if y = Config.stx ∧ isRecognized t = false then .ok (.unrecognizedType t len)
    else .error .notOneToken
  | _ => .error .notOneToken

/-- The instruction of a transfer's first byte and the bytes after it (R57, R74). -/
def decodeBody (c : Byte) (ops : List Byte) : Except DecodeError Instr :=
  match c.toNat with
  | 0x01 => .ok (.feed ops)
  | 0x02 => (decodeRequest c ops).map .txSend
  | 0x10 => decodeEsc ops
  | 0x11 => decodeNone c .startScan ops
  | 0x12 => (decodeIndex ops).map .endScanNaive
  | 0x13 => (decodeIndex ops).map .endScanAware
  | 0x14 => .ok (.rxPipeline ops)
  | 0x15 => .ok (.destuff ops)
  | 0x16 => .ok (.cksumVerify ops)
  | 0x17 => .ok (.decode93 ops)
  | 0x18 => .ok (.decode94 ops)
  | 0x20 => (decodeRequest c ops).map .encode
  | 0x21 => .ok (.cksumCompute ops)
  | 0x22 => .ok (.stuff ops)
  | 0x23 => decodeOne c .escCksum ops
  | 0x24 => .ok (.txWrite ops)
  | 0x93 => decodeOne c .typeIn ops
  | 0x94 => decodeOne c .typeOut ops
  | _ => .error (.unassignedCode c)

/-- Total on any bytes: an instruction, or why there is none. -/
def decode : List Byte → Except DecodeError Instr
  | [] => .error .empty
  | c :: ops => decodeBody c ops

/-- The transfer of an instruction, from the same tables. -/
def encode : Instr → List Byte
  | .feed chunk => 0x01#8 :: chunk
  | .txSend m => 0x02#8 :: requestBytes m
  | .drain => [0x10#8]
  | .startScan => [0x11#8]
  | .endScanNaive s => 0x12#8 :: indexBytes s s
  | .endScanAware s => 0x13#8 :: indexBytes s s
  | .rxPipeline f => 0x14#8 :: f
  | .destuff sp => 0x15#8 :: sp
  | .cksumVerify u => 0x16#8 :: u
  | .decode93 d => 0x17#8 :: d
  | .decode94 d => 0x18#8 :: d
  | .encode m => 0x20#8 :: requestBytes m
  | .cksumCompute x => 0x21#8 :: x
  | .stuff x => 0x22#8 :: x
  | .escCksum c => [0x23#8, c]
  | .txWrite w => 0x24#8 :: w
  | .startMark => [Config.esc, Config.stx]
  | .endMark => [Config.esc, Config.etx]
  | .escEsc => [Config.esc, Config.esc]
  | .typeIn len => [Config.typeIn, len]
  | .typeOut len => [Config.typeOut, len]
  | .unrecognizedType t len => [Config.esc, Config.stx, t, len]
  | .strayEsc x => [Config.esc, x]

/-! ### The opcode table's words -/

/-- The bytes of an `n`-byte word in wire order: the first byte is the word's high byte, as the table's notes on the wire rows say (log
entry 17). -/
def wordBytes : Nat → Nat → List Byte
  | 0, _ => []
  | n + 1, w => BitVec.ofNat 8 (w >>> (8 * n)) :: wordBytes n w

/-- How many operand bytes every form of the row has beyond the bits the table gives it: they are zero. -/
def operandPad : List Byte → Nat
  | [c] =>
    match c.toNat with
    | 0x02 => 6
    | 0x20 => 6
    | 0x23 => 1
    | 0x93 => 1
    | 0x94 => 1
    | _ => 0
  | [_, _, _] => 1
  | _ => 0

/-- The transfer of a table word: its bytes, then zero operand bytes. -/
def tableTransfer (nbits w : Nat) : List Byte :=
  let bs := wordBytes (nbits / 8) w
  bs ++ List.replicate (operandPad bs) 0#8

/-- The instruction the decoder reads from a table word; none where it refuses. -/
def decodeTableWord (nbits w : Nat) : Option Instr :=
  match decode (tableTransfer nbits w) with
  | .ok i => some i
  | .error _ => none

end Sys2Proof
end

