-- ==== Sys2Proof/Machine/State.lean ====
section
/-! DEFINITION. The machine's state as plain data: everything spec/10_state.md gives the block, the record of what it handed outside
(00_scope.md R10), and the host's coming inputs. The block has no registers, pc, flags, memory, traps or privilege (R20, R24, R25, R40, R168,
R170), so State has none. -/

namespace Sys2Proof.Machine

/-- The FSM state `st` (10_state.md R22). -/
inductive Fsm where
  | searching
  | headerPending
  | payloadPending
  deriving DecidableEq, Repr

/-- A decoded Message (R26): `data` is exactly `dlen` bytes long (R27, R28). -/
structure Message where
  pri  : Byte
  pgn  : Pgn
  dst  : Byte
  src  : Byte
  dlen : Byte
  data : List Byte
  deriving DecidableEq, Repr

/-- RX events with their info (60_exceptions.md R161). -/
inductive Event where
  /-- 0x00 MSG_DELIVERED. -/
  | msgDelivered (m : Message)
  /-- 0x01 FRAMING_ERROR: the number of bytes discarded. -/
  | framingError (k : Nat)
  /-- 0x02 UNRECOGNIZED_TYPE: the type byte. -/
  | unrecognizedType (t : Byte)
  /-- 0x03 TRUNCATED_FRAME: has a code and is never emitted. -/
  | truncatedFrame
  /-- 0x04 CHECKSUM_MISMATCH. -/
  | checksumMismatch (received computed : Byte)
  /-- 0x05 MALFORMED_PAYLOAD: the type, the bytes available in D, the bytes required. -/
  | malformedPayload (t : Byte) (have_ need : Nat)
  /-- 0x07 REJECTED_COMMANDED_ADDRESS: has a code and is never emitted by the block. -/
  | rejectedCommandedAddress
  /-- 0x08 FRAME_ABORT: the bytes of the aborted frame from its start marker. -/
  | frameAbort (k : Nat)
  /-- 0x09 BUFFER_OVERFLOW: the buffer length discarded. -/
  | bufferOverflow (k : Nat)
  deriving DecidableEq, Repr

/-- What a TX_SEND returns to its caller (R162). -/
inductive TxResult where
  /-- 0x0B TX_OK. -/
  | ok
  /-- 0x06 TX_WRITE_ERROR: bytes written, bytes due. -/
  | writeError (written due : Nat)
  /-- 0x0A ENCODE_ERROR: the data length over 223. -/
  | encodeError (n : Nat)
  deriving DecidableEq, Repr

/-- What an end scan returns (40_synchronizer.md R86, R87): `found e` is the rules' `end(e)`. -/
inductive ScanResult where
  | wait
  | found (e : Nat)
  | abort (p : Nat)
  deriving DecidableEq, Repr

/-- What a decoder returns (42_codec.md R128, R129). -/
inductive DecodeResult where
  | msg (m : Message)
  | malformed (t : Byte) (have_ need : Nat)
  deriving DecidableEq, Repr

/-- What ENCODE returns (R135). -/
inductive EncodeResult where
  | frame (w : List Byte)
  | encodeError (n : Nat)
  deriving DecidableEq, Repr

/-- The value an internal operation handed to its caller (the Result line of each operation rule; log entry 4). -/
inductive Returned where
  | nothing
  | index (r : Option Nat)
  | scan (r : ScanResult)
  | bytes (b : List Byte)
  | byte (c : Byte)
  | flag (b : Bool)
  | decoded (r : DecodeResult)
  | encoded (r : EncodeResult)
  | written (r : TxResult)
  deriving DecidableEq, Repr

/-- One call of the transport's `write` (R138): the bytes passed, and how many of them, from the first, it took. -/
structure Write where
  passed : List Byte
  taken  : Nat
  deriving DecidableEq, Repr

/-- What the host can do next (70_reset_and_hazards.md R188; log entry 5). -/
inductive HostInput where
  /-- A transfer: one instruction's bytes. -/
  | transfer (bytes : List Byte)
  /-- RESET, between transactions (R185, R186). -/
  | reset
  /-- The transport is closed: the run ends (R10, R174). -/
  | close
  deriving DecidableEq, Repr

/-- The transport endpoint (R187, R188; log entry 11). -/
inductive Port where
  | opened
  | closed
  | failed
  deriving DecidableEq, Repr

/-- Everything the block holds, what it handed outside, and the host's coming inputs. -/
structure State where
  /-- The instantiation parameters (R12, R32). -/
  params    : Params
  /-- B, the assembler buffer, oldest byte first (R21). -/
  buf       : List Byte
  /-- The FSM state (R22). -/
  st        : Fsm
  /-- E, the RX event stream, oldest first (R30). -/
  events    : List Event
  /-- The TX lock (R31). -/
  txBusy    : Bool
  /-- The results TX_SENDs returned, oldest first (R10 (b)). -/
  txResults : List TxResult
  /-- The byte sequences passed to the transport, oldest first (R10 (b)). -/
  writes    : List Write
  /-- The value the last internal operation handed to its caller (model's own, log entry 4). -/
  ret       : Returned
  /-- The host's coming inputs, oldest first (model's own, log entry 5). -/
  inbox     : List HostInput
  /-- The transport's coming answers, oldest first; none left: it takes every byte (model's own, log entry 6). -/
  answers   : List Nat
  /-- The transport endpoint (model's own, log entry 11). -/
  port      : Port
  deriving DecidableEq, Repr

/-- The block right after reset (R35, R185) with given instantiation parameters; the model's own fields are empty and the transport is open
(log entries 9, 11). -/
def State.resetWith (p : Params) : State :=
  { params := p, buf := [], st := .searching, events := [], txBusy := false, txResults := [], writes := [],
    ret := .nothing, inbox := [], answers := [], port := .opened }

/-- The machine right after reset, with the default parameters of R12 (log entry 8). -/
def State.reset : State := State.resetWith Params.source

/-- Why the machine stops. The block itself never traps (R168). -/
inductive Fault where
  /-- Raised by `step` where the transport endpoint could not be opened: the block is not started and no transaction runs (R164, R187; U19 of
  93_implementation_defined.md). Safe: the spec says the same. -/
  | transportNotOpen
  deriving DecidableEq, Repr

/-- Why a transfer has no meaning. -/
inductive Refusal where
  /-- Raised by an arm of `exec` whose instruction has no meaning yet; none is left. Safe. -/
  | notModelled (mnemonic : String)
  /-- Raised by `step` for an operation code the spec does not assign (R74; U20). Safe: the spec says the same. -/
  | unassignedCode (code : Byte)
  /-- Raised by `step` for a transfer that is no instruction for another reason (log entry 1; a priority above 7: R134, U13). Safe: no such
  transfer exists in the spec. -/
  | badTransfer (e : DecodeError)
  /-- Raised by `step` for a decoded instruction that is not well-formed; the decoder gives none. Safe. -/
  | illFormed
  deriving DecidableEq, Repr

end Sys2Proof.Machine
end

