-- ==== Sys2Proof/Machine/Flags.lean ====
section
/-! DEFINITION. The block has no status flags or condition codes (10_state.md R25). What stands in their place: the number of an FSM state
(R22), the code of an RX event (60_exceptions.md R161) and of a TX result (R162). -/

namespace Sys2Proof.Machine

/-- The FSM state's number (R22). -/
def Fsm.number : Fsm → Nat
  | .searching => 0
  | .headerPending => 1
  | .payloadPending => 2

/-- An RX event's code (R161). -/
def Event.code : Event → Byte
  | .msgDelivered _ => 0x00#8
  | .framingError _ => 0x01#8
  | .unrecognizedType _ => 0x02#8
  | .truncatedFrame => 0x03#8
  | .checksumMismatch _ _ => 0x04#8
  | .malformedPayload _ _ _ => 0x05#8
  | .rejectedCommandedAddress => 0x07#8
  | .frameAbort _ => 0x08#8
  | .bufferOverflow _ => 0x09#8

/-- A TX result's code; it shares one space with the events' (R162). -/
def TxResult.code : TxResult → Byte
  | .ok => 0x0B#8
  | .writeError _ _ => 0x06#8
  | .encodeError _ => 0x0A#8

end Sys2Proof.Machine
end

