-- ==== Sys2Proof/Machine/Operands.lean ====
section
/-! DEFINITION. Operand forms: the byte-sequence notation of 00_scope.md R14 and the derived sequences of 30_encoding.md R61. -/

namespace Sys2Proof.Machine

/-- `S[i]`; a rule reads it only where i < |S| (R14). -/
def byteAt (l : List Byte) (i : Nat) : Byte := l.getD i 0#8

/-- `S[i..j]`, the inclusive slice, empty when j < i (R14). -/
def slice (l : List Byte) (i j : Nat) : List Byte := (l.take (j + 1)).drop i

/-- The least index of the pair x, y in a sequence whose first index is `i`. -/
def pairIndex (x y : Byte) : Nat → List Byte → Option Nat
  | _, [] => none
  | _, [_] => none
  | i, a :: b :: rest => if a = x ∧ b = y then some i else pairIndex x y (i + 1) (b :: rest)

/-- `find(S, [x, y], from k)` (R14). -/
def find (l : List Byte) (x y : Byte) (k : Nat) : Option Nat := pairIndex x y k (l.drop k)

/-- The span of a RawFrame, `F[2 .. |F|-3]`: the bytes between its markers (R61). -/
def spanOf (f : List Byte) : List Byte := (f.take (f.length - 2)).drop 2

/-- The sequence without its last byte, `U[0 .. |U|-2]`: the decode input of an unstuffed frame (R61). -/
def butLast (u : List Byte) : List Byte := u.dropLast

end Sys2Proof.Machine
end

