-- ==== Sys2Proof/Machine/Ops.lean ====
section
/-! DEFINITION. The named operations over the buffer, the event stream, the transport and the lock: the primitives of 00_scope.md R16 and the
RESET action of 70_reset_and_hazards.md R185. The block has no trap, so there is no exception to take and none to return from (60_exceptions.md
R168): every error condition is an `emit` (R16, R160). -/

namespace Sys2Proof.Machine

/-- `BufAppend(S)`: `B <- B ++ S` (R16). -/
def State.bufAppend (s : State) (l : List Byte) : State := { s with buf := s.buf ++ l }

/-- `BufDropPrefix(k)`: `B <- B[k..]` (R16). -/
def State.bufDrop (s : State) (k : Nat) : State := { s with buf := s.buf.drop k }

/-- `BufClear(keep)`: `B <- keep` (R16). -/
def State.bufClear (s : State) (keep : List Byte) : State := { s with buf := keep }

/-- `emit X(info)`: appends to E and does nothing else (R16, R160). -/
def State.emit (s : State) (e : Event) : State := { s with events := s.events ++ [e] }

/-- `st <- v` (R91). -/
def State.setFsm (s : State) (v : Fsm) : State := { s with st := v }

/-- An internal operation hands its value to its caller (log entry 4). -/
def State.give (s : State) (r : Returned) : State := { s with ret := r }

/-- `tx_busy <- b` (10_state.md R31). -/
def State.setBusy (s : State) (b : Bool) : State := { s with txBusy := b }

/-- `return r` at the end of a TX_SEND: the result goes to the caller (R16). -/
def State.txReturn (s : State) (r : TxResult) : State := { s with txResults := s.txResults ++ [r] }

/-- How many bytes of `w` the transport takes at its next write: its answer, never above |w| (42_codec.md R138); every byte when no answer is
given (R17). -/
def State.nextCount (s : State) (w : List Byte) : Nat :=
  match s.answers with
  | [] => w.length
  | n :: _ => min n w.length

/-- `transport.write(W)` (R138): the transport receives the first bytes of `w`, and its answer is used up. -/
def State.transportWrite (s : State) (w : List Byte) : State :=
  { s with writes := s.writes ++ [{ passed := w, taken := s.nextCount w }], answers := s.answers.tail }

/-- A caller that finds the lock held awaits (42_codec.md R139): its request stays among the host's inputs, behind those already there (log
entry 7). -/
def State.await (s : State) (m : Request) : State :=
  { s with inbox := s.inbox ++ [.transfer (encode (.txSend m))] }

/-- RESET (R185): B, st, E and tx_busy at their reset values, the parameters at their instantiation values. What the block handed outside and
the host's side of the interface are not the block's state (R186; log entry 10). -/
def State.restart (s : State) : State :=
  { s with buf := [], st := .searching, events := [], txBusy := false, ret := .nothing }

/-- The line: the bytes the transport took, in order (20_memory.md R42, R138). -/
def State.line (s : State) : List Byte := s.writes.flatMap fun w => w.passed.take w.taken

end Sys2Proof.Machine
end

