-- ==== Sys2Proof/Machine/Checksum.lean ====
section
/-! DEFINITION. The additive checksum: CKSUM_COMPUTE, CKSUM_VERIFY (41_escape_checksum.md). -/

namespace Sys2Proof.Machine

/-- The 8-bit accumulator of CKSUM_COMPUTE after the bytes of `x` (R115). -/
def cksumAcc (x : List Byte) : Nat := x.foldl (fun acc b => (acc + b.toNat) % 256) 0

/-- CKSUM_COMPUTE(X): `(256 - acc) mod 256` (R115). -/
def cksumCompute (x : List Byte) : Byte := BitVec.ofNat 8 ((256 - cksumAcc x) % 256)

/-- CKSUM_VERIFY(U): the last byte equals CKSUM_COMPUTE of the bytes before it; false on the empty sequence (R116). -/
def cksumVerify (u : List Byte) : Bool :=
  match u.getLast? with
  | none => false
  | some c => c == cksumCompute (butLast u)

/-- CKSUM_COMPUTE as an instruction (R48, R115). -/
def execCksumCompute (x : List Byte) (s : State) : Host.Outcome State Fault Refusal :=
  .next (s.give (.byte (cksumCompute x)))

/-- CKSUM_VERIFY as an instruction (R116). -/
def execCksumVerify (u : List Byte) (s : State) : Host.Outcome State Fault Refusal :=
  .next (s.give (.flag (cksumVerify u)))

end Sys2Proof.Machine
end

