-- ==== Sys2Proof/Machine/Escape.lean ====
section
/-! DEFINITION. Escape removal and stuffing: DESTUFF, STUFF, ESC_CKSUM (41_escape_checksum.md). -/

namespace Sys2Proof.Machine

/-- DESTUFF(S) (R110): left to right, each pair `10 10` becomes one `10`; every other byte, a lone `10` included, passes. -/
def destuff : List Byte → List Byte
  | [] => []
  | [a] => [a]
  | a :: b :: rest =>
    if a = Config.esc ∧ b = Config.esc then Config.esc :: destuff rest else a :: destuff (b :: rest)

/-- STUFF(X) (R112): every `10` is doubled. -/
def stuff : List Byte → List Byte
  | [] => []
  | b :: rest => if b = Config.esc then Config.esc :: Config.esc :: stuff rest else b :: stuff rest

/-- ESC_CKSUM(c) (R113). -/
def escCksum (c : Byte) : List Byte := if c = Config.esc then [Config.esc, Config.esc] else [c]

/-- DESTUFF as an instruction: a pure function of its operand (R48, R110). -/
def execDestuff (sp : List Byte) (s : State) : Host.Outcome State Fault Refusal :=
  .next (s.give (.bytes (destuff sp)))

/-- STUFF as an instruction (R112), for any parameter (log entry 13, DESIGN CHOICE). -/
def execStuff (x : List Byte) (s : State) : Host.Outcome State Fault Refusal :=
  .next (s.give (.bytes (stuff x)))

/-- ESC_CKSUM as an instruction (R113), for any parameter (log entry 13, DESIGN CHOICE). -/
def execEscCksum (c : Byte) (s : State) : Host.Outcome State Fault Refusal :=
  .next (s.give (.bytes (escCksum c)))

end Sys2Proof.Machine
end

