-- ==== Sys2Proof/Machine/Codec.lean ====
section
/-! DEFINITION. The message codec and the receive pipeline: DECODE_93, DECODE_94, ENCODE, RX_PIPELINE (42_codec.md), with the layouts of
30_encoding.md R62 to R64. -/

namespace Sys2Proof.Machine

/-- The fields of a decode input (R64), with the DataLength byte at offset `o - 1`, Data from offset `o`, and the given source. -/
def messageAt (d : List Byte) (o : Nat) (src : Byte) : Message :=
  { pri := byteAt d 2, pgn := pgnOf (byteAt d 3) (byteAt d 4) (byteAt d 5), dst := byteAt d 6, src := src,
    dlen := byteAt d (o - 1), data := (d.drop o).take (byteAt d (o - 1)).toNat }

/-- The checks both decoders make, in the order of R166: no DataLength byte, DataLength over 223, DataLength over the bytes available. -/
def decodeLayout (t : Byte) (o : Nat) (src : Byte) (d : List Byte) : DecodeResult :=
  if d.length < o then .malformed t d.length o
  else if Config.dataCap < (byteAt d (o - 1)).toNat then .malformed t d.length (o + (byteAt d (o - 1)).toNat)
  else if d.length < o + (byteAt d (o - 1)).toNat then .malformed t d.length (o + (byteAt d (o - 1)).toNat)
  else .msg (messageAt d o src)

/-- DECODE_93(D) (R128): 2 + 11 bytes before Data; the source is D[7]; the reserved bytes D[8..11] and the length byte D[1] are not used. -/
def decode93 (d : List Byte) : DecodeResult :=
  decodeLayout Config.typeIn (2 + Config.hdrIn) (byteAt d 7) d

/-- DECODE_94(D) (R129): 2 + 6 bytes before Data; the source is 0 (R133). -/
def decode94 (d : List Byte) : DecodeResult :=
  decodeLayout Config.typeOut (2 + Config.hdrOut) 0x00#8 d

/-- The payload ENCODE packs, `P` (R135; layout R63). -/
def encodePayload (m : Request) : List Byte :=
  m.pri.setWidth 8 :: (pgnBytes m.pgn ++ [m.dst, BitVec.ofNat 8 m.data.length] ++ m.data)

/-- `H`: the type byte, the length byte `L = |P|` and the payload (R135, R137). -/
def encodeHead (m : Request) : List Byte :=
  Config.typeOut :: BitVec.ofNat 8 (encodePayload m).length :: encodePayload m

/-- The span ENCODE sends for `H` and its checksum (R135): stuffed whole, or with the checksum only doubled. -/
def encodeSpan (p : Params) (h : List Byte) : List Byte :=
  if p.escTxAll then stuff (h ++ [cksumCompute h]) else h ++ escCksum (cksumCompute h)

/-- ENCODE(m) (R135, R136). -/
def encodeFrame (p : Params) (m : Request) : EncodeResult :=
  if Config.dataCap < m.data.length then .encodeError m.data.length
  else .frame ([Config.esc, Config.stx] ++ encodeSpan p (encodeHead m) ++ [Config.esc, Config.etx])

/-- The byte CHECKSUM_MISMATCH reports as received, `U[|U|-1]` (R125); a free value where U is empty (log entry 12). -/
def receivedCksum (u : List Byte) : Byte := u.getLast?.getD (Config.absentByte u)

/-- The decoder selected by the type byte `D[0]` (R125, R126); where D is empty the type byte is a free value (log entry 12). -/
def decodeByType (u : List Byte) : DecodeResult :=
  if (butLast u).headD (Config.absentByte u) = Config.typeIn then decode93 (butLast u) else decode94 (butLast u)

/-- The one event of a frame, from its unstuffed bytes (R125, R166): checksum first, then the payload. -/
def frameEvent (u : List Byte) : Event :=
  if cksumVerify u then
    match decodeByType u with
    | .msg m => .msgDelivered m
    | .malformed t have_ need => .malformedPayload t have_ need
  else .checksumMismatch (receivedCksum u) (cksumCompute (butLast u))

/-- RX_PIPELINE(F) (R125): strip the markers, remove the stuffing, check, decode, deliver. -/
def rxPipeline (f : List Byte) (s : State) : State := s.emit (frameEvent (destuff (spanOf f)))

/-- RX_PIPELINE as an instruction (R125): issued alone it emits its event each time, as R125 says and R48 does not (log entry 20, DESIGN
CHOICE). The operand need not be a RawFrame (log entries 12 and 13, DESIGN CHOICE). -/
def execRxPipeline (f : List Byte) (s : State) : Host.Outcome State Fault Refusal := .next (rxPipeline f s)

/-- DECODE_93 as an instruction (R128), whatever the type byte (log entry 13, DESIGN CHOICE). -/
def execDecode93 (d : List Byte) (s : State) : Host.Outcome State Fault Refusal :=
  .next (s.give (.decoded (decode93 d)))

/-- DECODE_94 as an instruction (R129), whatever the type byte (log entry 13, DESIGN CHOICE). -/
def execDecode94 (d : List Byte) (s : State) : Host.Outcome State Fault Refusal :=
  .next (s.give (.decoded (decode94 d)))

/-- ENCODE as an instruction (R135). -/
def execEncode (m : Request) (s : State) : Host.Outcome State Fault Refusal :=
  .next (s.give (.encoded (encodeFrame s.params m)))

end Sys2Proof.Machine
end

