-- ==== Sys2Proof/Machine/Synchronizer.lean ====
section
/-! DEFINITION. The frame synchronizer: FEED, DRAIN, START_SCAN, END_SCAN_NAIVE, END_SCAN_AWARE, and the parts of them that have no row of
their own, NO_MARKER and OVERFLOW_CHECK (40_synchronizer.md). -/

namespace Sys2Proof.Machine

/-- START_SCAN() (R82): the least s with `B[s..s+1] = 10 02`. -/
def startScan (b : List Byte) : Option Nat := find b Config.esc Config.stx 0

/-- END_SCAN_NAIVE(s) (R86): the first `10 03` from s + 2, or wait. -/
def endScanNaive (b : List Byte) (s : Nat) : ScanResult :=
  match find b Config.esc Config.etx (s + 2) with
  | none => .wait
  | some e => .found e

/-- The loop of END_SCAN_AWARE (R87) on the bytes from index `p` on: a byte other than ESC is data; `10 03` ends; `10 10` is skipped; another
pair aborts; an ESC without its partner, and the end of the buffer, wait. -/
def awareFrom : Nat → List Byte → ScanResult
  | _, [] => .wait
  | _, [_] => .wait
  | p, a :: x :: rest =>
    if a = Config.esc then
      if x = Config.etx then .found p
      else if x = Config.esc then awareFrom (p + 2) rest
      else .abort p
    else awareFrom (p + 1) (x :: rest)

/-- END_SCAN_AWARE(s) (R87): the walk from s + 2. -/
def endScanAware (b : List Byte) (s : Nat) : ScanResult := awareFrom (s + 2) (b.drop (s + 2))

/-- The end scan P_ESC_AWARE_SCAN selects (R81). -/
def endScan (p : Params) (b : List Byte) (s : Nat) : ScanResult :=
  if p.escAwareScan then endScanAware b s else endScanNaive b s

/-- What NO_MARKER keeps (R83): a final ESC when P_KEEP_TAIL_ESC is set, else nothing. -/
def keptTail (p : Params) (b : List Byte) : List Byte :=
  if p.keepTailEsc ∧ b.getLast? = some Config.esc then [Config.esc] else []

/-- NO_MARKER() (R83): FRAMING_ERROR with the number of bytes discarded when there is one; B becomes what is kept. -/
def noMarker (s : State) : State :=
  let keep := keptTail s.params s.buf
  if keep.length < s.buf.length then (s.emit (.framingError (s.buf.length - keep.length))).bufClear keep
  else s.bufClear keep

/-- How one pass of DRAIN's loop ends: it returns, or the loop goes on (R81). -/
inductive Pass where
  | stop (s : State)
  | again (s : State)
  deriving DecidableEq, Repr

/-- One pass of DRAIN's loop (R81, with R83, R84, R85, R88, R91), its checks in the order of 60_exceptions.md R165. -/
def drainPass (s : State) : Pass :=
  match startScan s.buf with
  | none => .stop ((noMarker s).setFsm .searching)
  | some k =>
    if s.buf.length ≤ k + 3 then .stop ((s.bufDrop k).setFsm .headerPending)
    else if byteAt s.buf (k + 2) = Config.typeIn ∨ byteAt s.buf (k + 2) = Config.typeOut then
      match endScan s.params s.buf k with
      | .wait => .stop ((s.bufDrop k).setFsm .payloadPending)
      | .abort p => .again ((s.emit (.frameAbort (p - k))).bufDrop p)
      | .found e => .again (rxPipeline (slice s.buf k (e + 1)) (s.bufDrop (e + 2)))
    else .again ((s.emit (.unrecognizedType (byteAt s.buf (k + 2)))).bufDrop (k + 1))

/-- At most `fuel` passes of DRAIN's loop. -/
def drainLoop : Nat → State → State
  | 0, s => s
  | fuel + 1, s =>
    match drainPass s with
    | .stop t => t
    | .again t => drainLoop fuel t

/-- DRAIN() (R81). A pass that goes on removes at least one byte (R92), so the passes allowed are never used up (log entry 18). -/
def drain (s : State) : State := drainLoop (s.buf.length + 1) s

/-- OVERFLOW_CHECK() (R90). -/
def overflowCheck (s : State) : State :=
  match s.params.bufCap with
  | none => s
  | some c =>
    if c < s.buf.length then ((s.emit (.bufferOverflow s.buf.length)).bufClear []).setFsm .searching else s

/-- FEED(chunk) (R80): append, drain, check the bound. -/
def feed (chunk : List Byte) (s : State) : State := overflowCheck (drain (s.bufAppend chunk))

/-- FEED as an instruction: the host's RX transaction (R80). -/
def execFeed (chunk : List Byte) (s : State) : Host.Outcome State Fault Refusal := .next (feed chunk s)

/-- DRAIN as an instruction (R81): it writes B, st and E, as R81 says and R48 does not (log entry 20, DESIGN CHOICE). -/
def execDrain (s : State) : Host.Outcome State Fault Refusal := .next (drain s)

/-- START_SCAN as an instruction (R82). -/
def execStartScan (s : State) : Host.Outcome State Fault Refusal := .next (s.give (.index (startScan s.buf)))

/-- END_SCAN_NAIVE as an instruction (R86), for any start index and parameter (log entry 13, DESIGN CHOICE). -/
def execEndScanNaive (k : Nat) (s : State) : Host.Outcome State Fault Refusal :=
  .next (s.give (.scan (endScanNaive s.buf k)))

/-- END_SCAN_AWARE as an instruction (R87), for any start index and parameter (log entry 13, DESIGN CHOICE). -/
def execEndScanAware (k : Nat) (s : State) : Host.Outcome State Fault Refusal :=
  .next (s.give (.scan (endScanAware s.buf k)))

end Sys2Proof.Machine
end

