-- ==== Sys2Proof/Machine/Tokens.lean ====
section
/-! DEFINITION. The wire tokens (30_encoding.md R56, R57, R68, R69). A token acts by arriving on the line: its bytes are one chunk, and what
they do follows from the buffer they meet (R73, 40_synchronizer.md R80, R81). Log entries 2 and 3. -/

namespace Sys2Proof.Machine

/-- START, `10 02` (R56). -/
def execStartMark (s : State) : Host.Outcome State Fault Refusal := .next (feed [Config.esc, Config.stx] s)

/-- END, `10 03` (R56). -/
def execEndMark (s : State) : Host.Outcome State Fault Refusal := .next (feed [Config.esc, Config.etx] s)

/-- ESCESC, `10 10` (R56). -/
def execEscEsc (s : State) : Host.Outcome State Fault Refusal := .next (feed [Config.esc, Config.esc] s)

/-- TYPE_IN with the length byte after it: the synchronizer acts on a type byte only when the length byte is there (R57, R84). -/
def execTypeIn (len : Byte) (s : State) : Host.Outcome State Fault Refusal := .next (feed [Config.typeIn, len] s)

/-- TYPE_OUT with the length byte after it (R57, R84). -/
def execTypeOut (len : Byte) (s : State) : Host.Outcome State Fault Refusal := .next (feed [Config.typeOut, len] s)

/-- UNRECOGNIZED_TYPE: `10 02 t` with the length byte after it (R68, R84, R85). -/
def execUnrecognizedType (t len : Byte) (s : State) : Host.Outcome State Fault Refusal :=
  .next (feed [Config.esc, Config.stx, t, len] s)

/-- STRAY_ESC, `10 x` (R69). -/
def execStrayEsc (x : Byte) (s : State) : Host.Outcome State Fault Refusal := .next (feed [Config.esc, x] s)

end Sys2Proof.Machine
end

