-- ==== Sys2Proof/Machine/Transmit.lean ====
section
/-! DEFINITION. The transmit path: TX_WRITE and TX_SEND (42_codec.md). -/

namespace Sys2Proof.Machine

/-- What TX_WRITE(W) returns when the transport took `n` bytes (R138). -/
def writeResult (n : Nat) (w : List Byte) : TxResult := if n = w.length then .ok else .writeError n w.length

/-- TX_SEND(m) once the lock is taken (R139): encode, write, and the result. -/
def encodeAndWrite (m : Request) (s : State) : State :=
  match encodeFrame s.params m with
  | .encodeError n => s.txReturn (.encodeError n)
  | .frame w => (s.transportWrite w).txReturn (writeResult (s.nextCount w) w)

/-- TX_SEND(m) (R139): await the lock, take it, encode and write, release it. -/
def txSend (m : Request) (s : State) : State :=
  if s.txBusy then s.await m else (encodeAndWrite m (s.setBusy true)).setBusy false

/-- TX_WRITE as an instruction (R138): issued alone it writes to the transport each time, as R138 says and R48 does not (log entry 20, DESIGN
CHOICE). The operand need not be a frame from ENCODE and can be empty, and the lock plays no part (log entry 13, DESIGN CHOICE). -/
def execTxWrite (w : List Byte) (s : State) : Host.Outcome State Fault Refusal :=
  .next ((s.transportWrite w).give (.written (writeResult (s.nextCount w) w)))

/-- TX_SEND as an instruction: the host's TX transaction (R139). -/
def execTxSend (m : Request) (s : State) : Host.Outcome State Fault Refusal := .next (txSend m s)

end Sys2Proof.Machine
end

