-- ==== Sys2Proof/Machine/Dispatch.lean ====
section
/-! DEFINITION. One arm per row of spec/opcode_table.json. -/

namespace Sys2Proof.Machine

def exec (i : Instr) (s : State) : Host.Outcome State Fault Refusal :=
  match i with
  | .feed chunk => Sys2Proof.Machine.execFeed chunk s
  | .txSend m => Sys2Proof.Machine.execTxSend m s
  | .drain => Sys2Proof.Machine.execDrain s
  | .startScan => Sys2Proof.Machine.execStartScan s
  | .endScanNaive k => Sys2Proof.Machine.execEndScanNaive k s
  | .endScanAware k => Sys2Proof.Machine.execEndScanAware k s
  | .rxPipeline f => Sys2Proof.Machine.execRxPipeline f s
  | .destuff sp => Sys2Proof.Machine.execDestuff sp s
  | .cksumVerify u => Sys2Proof.Machine.execCksumVerify u s
  | .decode93 d => Sys2Proof.Machine.execDecode93 d s
  | .decode94 d => Sys2Proof.Machine.execDecode94 d s
  | .encode m => Sys2Proof.Machine.execEncode m s
  | .cksumCompute x => Sys2Proof.Machine.execCksumCompute x s
  | .stuff x => Sys2Proof.Machine.execStuff x s
  | .escCksum c => Sys2Proof.Machine.execEscCksum c s
  | .txWrite w => Sys2Proof.Machine.execTxWrite w s
  | .startMark => Sys2Proof.Machine.execStartMark s
  | .endMark => Sys2Proof.Machine.execEndMark s
  | .escEsc => Sys2Proof.Machine.execEscEsc s
  | .typeIn len => Sys2Proof.Machine.execTypeIn len s
  | .typeOut len => Sys2Proof.Machine.execTypeOut len s
  | .unrecognizedType t len => Sys2Proof.Machine.execUnrecognizedType t len s
  | .strayEsc x => Sys2Proof.Machine.execStrayEsc x s

end Sys2Proof.Machine
end

