-- ==== Sys2Proof/Machine/Fetch.lean ====
section
/-! DEFINITION. Fetching the host's next input and running it (70_reset_and_hazards.md R188). A transaction is one atomic step (00_scope.md
R9, 20_memory.md R45, R46); the order of the inputs is the interleaving of the agents (R8; log entry 5). -/

namespace Sys2Proof.Machine

/-- A transfer's outcome: its instruction's, or a refusal by name (30_encoding.md R74). -/
def runTransfer (bytes : List Byte) (s : State) : Host.Outcome State Fault Refusal :=
  match decode bytes with
  | .ok i => if i.wellFormed then exec i s else .refused .illFormed
  | .error (.unassignedCode c) => .refused (.unassignedCode c)
  | .error e => .refused (.badTransfer e)

/-- The host's next input with the transport open. With none, the block waits (R185). -/
def runOpen (s : State) : Host.Outcome State Fault Refusal :=
  match s.inbox with
  | [] => .next s
  | .reset :: rest => .next { s.restart with inbox := rest }
  | .close :: rest => .next { s with port := .closed, inbox := rest }
  | .transfer bytes :: rest => runTransfer bytes { s with inbox := rest }

/-- The host's next input. A transport that could not be opened is fatal at initialization (R164, R187); a closed one ends the run (R10,
R174). -/
def runInput (s : State) : Host.Outcome State Fault Refusal :=
  match s.port with
  | .failed => .fault .transportNotOpen
  | .closed => .next s
  | .opened => runOpen s

/-- `s` with one transfer before the host's other inputs, the transport open (log entry 15). -/
def State.placeTransfer (s : State) (bytes : List Byte) : State :=
  { s with inbox := .transfer bytes :: s.inbox, port := .opened }

end Sys2Proof.Machine
end

