-- ==== Sys2Proof/Machine/Step.lean ====
section
/-! DEFINITION. One step of the machine. -/

namespace Sys2Proof.Machine

/-- One step: the host's next input, taken and run. -/
def step (s : State) : Host.Outcome State Fault Refusal := runInput s

/-- `s` with the transfer of an opcode-table word where `step` takes its next input (log entries 15, 17). -/
def State.withFetchWord (s : State) (nbits w : Nat) : State := s.placeTransfer (tableTransfer nbits w)

end Sys2Proof.Machine
end

