-- ==== Sys2Proof/Safety.lean ====
section
/-! DEFINITION. The terms claims are stated in: what a safe state is, and the spec's words for byte sequences, frames and runs of FEEDs. -/

namespace Sys2Proof.Machine

/-! ### Byte pairs and the aware walk -/

/-- The pair x, y stands at index `k` (00_scope.md R14). -/
abbrev PairAt (b : List Byte) (x y : Byte) (k : Nat) : Prop := b[k]? = some x ∧ b[k + 1]? = some y

/-- `k` is the least index from `from_` on where the pair stands: what `find` means (R14). -/
abbrev FirstPair (b : List Byte) (x y : Byte) (from_ k : Nat) : Prop :=
  from_ ≤ k ∧ PairAt b x y k ∧ ∀ j < k, from_ ≤ j → ¬ PairAt b x y j

/-- The pair stands nowhere from `from_` on. -/
abbrev NoPair (b : List Byte) (x y : Byte) (from_ : Nat) : Prop := ∀ j < b.length, from_ ≤ j → ¬ PairAt b x y j

/-- The indices END_SCAN_AWARE's `p` takes from `start` on (40_synchronizer.md R87): one past a byte other than ESC, two past an escape pair. -/
inductive AwareVisits (b : List Byte) (start : Nat) : Nat → Prop where
  | first : AwareVisits b start start
  | data {q : Nat} {a : Byte} : AwareVisits b start q → b[q]? = some a → a ≠ Config.esc → AwareVisits b start (q + 1)
  | pair {q : Nat} : AwareVisits b start q → PairAt b Config.esc Config.esc q → AwareVisits b start (q + 2)

/-- An open escape: pairing each ESC with the byte after it, the last byte is an ESC without a partner (42_codec.md R138). -/
def endsInOpenEscape : List Byte → Bool
  | [] => false
  | [a] => a == Config.esc
  | a :: b :: rest => if a = Config.esc then endsInOpenEscape rest else endsInOpenEscape (b :: rest)

/-! ### Safe states -/

/-- What the buffer can hold between transactions, for each FSM state (10_state.md R23). -/
def bufferShape (p : Params) (b : List Byte) : Fsm → Bool
  | .searching => decide (b = [] ∨ (p.keepTailEsc = true ∧ b = [Config.esc]))
  | .headerPending => decide (b.take 2 = [Config.esc, Config.stx] ∧ b.length ≤ 3)
  | .payloadPending =>
    decide (b.take 2 = [Config.esc, Config.stx] ∧ 4 ≤ b.length ∧ isRecognized (byteAt b 2) = true ∧ endScan p b 0 = .wait)

/-- `n` bytes may stay in the buffer (40_synchronizer.md R90). -/
def fits (p : Params) (n : Nat) : Bool :=
  match p.bufCap with
  | none => true
  | some c => decide (n ≤ c)

/-- A Message as the data model has it (10_state.md R27). -/
def Message.valid (m : Message) : Bool := decide (m.dlen.toNat = m.data.length ∧ m.data.length ≤ Config.dataCap)

/-- An event the block can emit, with an info in its range (60_exceptions.md R161). -/
def Event.legal (p : Params) : Event → Bool
  | .msgDelivered m => m.valid
  | .framingError k => decide (1 ≤ k)
  | .unrecognizedType t => !isRecognized t
  | .truncatedFrame => false
  | .checksumMismatch _ _ => true
  | .malformedPayload t _ _ => isRecognized t
  | .rejectedCommandedAddress => false
  | .frameAbort k => p.escAwareScan && decide (2 ≤ k)
  | .bufferOverflow k => !fits p k

/-- An event RX_PIPELINE emits (R161): there is one for each frame handed to it. -/
def Event.fromPipeline : Event → Bool
  | .msgDelivered _ => true
  | .checksumMismatch _ _ => true
  | .malformedPayload _ _ _ => true
  | _ => false

/-- A FRAMING_ERROR event. -/
def Event.isFramingError : Event → Bool
  | .framingError _ => true
  | _ => false

/-- A state between transactions: the buffer has the shape its FSM state says and fits the bound. -/
def State.settled (s : State) : Bool := bufferShape s.params s.buf s.st && fits s.params s.buf.length

/-- A safe state: settled, the lock free (R31), every event legal. -/
def State.safe (s : State) : Bool := s.settled && !s.txBusy && s.events.all (Event.legal s.params)

/-! ### Frames and runs of FEEDs -/

/-- The Message a request reads as after the round trip: source 0 (42_codec.md R133, R140). -/
def messageOf (m : Request) : Message :=
  { pri := m.pri.setWidth 8, pgn := m.pgn, dst := m.dst, src := 0x00#8, dlen := BitVec.ofNat 8 m.data.length, data := m.data }

/-- FEEDs of the chunks, one after the other. -/
def feedAll (cs : List (List Byte)) (s : State) : State := cs.foldl (fun t c => feed c t) s

/-- A clean frame that carries `m` (40_synchronizer.md R95): a wire frame whose FEED into an empty buffer emits exactly its MSG_DELIVERED and
leaves the buffer empty. -/
abbrev CleanFrame (p : Params) (w : List Byte) (m : Message) : Prop :=
  w.take 2 = [Config.esc, Config.stx] ∧ (feed w (State.resetWith p)).events = [.msgDelivered m] ∧
    (feed w (State.resetWith p)).buf = []

/-- R95 (a): no start marker followed by a recognised type. -/
abbrev NoFrameStart (g : List Byte) : Prop :=
  ∀ i < g.length, PairAt g Config.esc Config.stx i → (g[i + 2]?).all (fun t => !isRecognized t) = true

/-- No chunk ends after the `n` first bytes of the stream. -/
abbrev NoCutAt (cs : List (List Byte)) (n : Nat) : Prop := ∀ k ≤ cs.length, ((cs.take k).flatten).length ≠ n

end Sys2Proof.Machine
end

