-- ==== Sys2Proof/Certificates/Slice0/Obligations.lean ====
section
/-! DEFINITION. The statements for the provers. Each docstring names the rule of spec/ the statement formalises. `exec i s = .next t` says the
instruction completes and gives all of the next state: `{ s with ... }` names every field that changes. -/

open Sys2Proof Sys2Proof.Machine

/-! ### Reset and the step -/

/-- R35: the reset value of every state element, for any instantiation parameters. -/
def Obligations.ResetLeavesTheSpecsValues : Prop :=
  ∀ p : Params,
    (State.resetWith p).buf = [] ∧ (State.resetWith p).st = .searching ∧ (State.resetWith p).events = [] ∧
    (State.resetWith p).txBusy = false ∧ (State.resetWith p).params = p

/-- The machine's reset state is R35's with the default parameters (the model's choice, log entry 8), and it is safe. -/
def Obligations.ResetIsSafe : Prop :=
  State.reset = State.resetWith { escTxAll := false, escAwareScan := false, keepTailEsc := false, bufCap := none } ∧
  ∀ p : Params, (State.resetWith p).safe = true

/-- What a step does where no transaction runs: RESET (R185; what it leaves alone is log entry 10), waiting for the host (R185), the close of
the transport and the end of the run (R10, R174, log entry 11), a transport that could not be opened (R187, log entry 11). -/
def Obligations.StepWithoutATransaction : Prop :=
  (∀ s rest, s.port = .opened → s.inbox = .reset :: rest →
    step s = .next { s with buf := [], st := .searching, events := [], txBusy := false, ret := .nothing, inbox := rest }) ∧
  (∀ s, s.port = .opened → s.inbox = [] → step s = .next s) ∧
  (∀ s rest, s.port = .opened → s.inbox = .close :: rest → step s = .next { s with port := .closed, inbox := rest }) ∧
  (∀ s, s.port = .closed → step s = .next s) ∧
  (∀ s, s.port = .failed → step s = .fault .transportNotOpen)

/-- When the host's next input is a transfer that decodes to a well-formed instruction, step takes it and is exec of that instruction. -/
def Obligations.StepRunsTheDecodedTransfer : Prop :=
  ∀ s bytes rest i, s.port = .opened → s.inbox = .transfer bytes :: rest → decode bytes = .ok i → i.wellFormed = true →
    step s = exec i { s with inbox := rest }

/-- R74: every code the table does not assign is refused, whatever follows it, and is not treated as a no-op. (0x93 and 0x94 begin the wire
rows of log entry 1; every other first byte of a transfer is an operation code.) -/
def Obligations.UnassignedCodesAreRefused : Prop :=
  ∀ s (c : Byte) ops rest, s.port = .opened → s.inbox = .transfer (c :: ops) :: rest →
    c.toNat ∉ [0x01, 0x02, 0x10, 0x11, 0x12, 0x13, 0x14, 0x15, 0x16, 0x17, 0x18, 0x20, 0x21, 0x22, 0x23, 0x24, 0x93, 0x94] →
    step s = .refused (.unassignedCode c)

/-! ### Encoding -/

/-- Words of spec/opcode_table.json decode to their rows, and transfers written out by hand to their instructions. -/
def Obligations.TableWordsDecodeToTheirRows : Prop :=
  decodeTableWord 8 0x01 = some (.feed []) ∧ decodeTableWord 8 0x10 = some .drain ∧
  decodeTableWord 8 0x11 = some .startScan ∧ decodeTableWord 8 0x13 = some (.endScanAware 0) ∧
  decodeTableWord 8 0x24 = some (.txWrite []) ∧
  decodeTableWord 16 0x1002 = some .startMark ∧ decodeTableWord 16 0x1003 = some .endMark ∧
  decodeTableWord 16 0x1010 = some .escEsc ∧ decodeTableWord 16 0x1055 = some (.strayEsc 0x55#8) ∧
  decodeTableWord 8 0x93 = some (.typeIn 0x00#8) ∧ decodeTableWord 8 0x94 = some (.typeOut 0x00#8) ∧
  decodeTableWord 24 0x100255 = some (.unrecognizedType 0x55#8 0x00#8) ∧
  decodeTableWord 24 0x100293 = none ∧ decodeTableWord 8 0x7E = none ∧
  decode [0x02#8, 0x06#8, 0x02#8, 0xF8#8, 0x01#8, 0xFF#8, 0x23#8, 0xAA#8] =
    .ok (.txSend { pri := 6#3, pgn := 129026#24, dst := 255#8, src := 0x23#8, data := [0xAA#8] })

/-- A well-formed instruction's transfer decodes to it, with every operand at every value. -/
def Obligations.DecodeInvertsEncode : Prop := ∀ i : Instr, i.wellFormed = true → decode (encode i) = .ok i

/-- Each instruction has one transfer, and the decoder gives well-formed instructions only. -/
def Obligations.EncodeInvertsDecode : Prop :=
  ∀ (bytes : List Byte) (i : Instr), decode bytes = .ok i → encode i = bytes ∧ i.wellFormed = true

/-! ### The scans -/

/-- R82: START_SCAN returns the least s with B[s] = 10 and B[s+1] = 02, or none, and changes nothing else. -/
def Obligations.StartScanReturnsTheFirstStartMarker : Prop :=
  ∀ s, ∃ r, exec .startScan s = .next { s with ret := .index r } ∧
    (∀ k, r = some k ↔ FirstPair s.buf 0x10#8 0x02#8 0 k) ∧ (r = none ↔ NoPair s.buf 0x10#8 0x02#8 0)

/-- R86: END_SCAN_NAIVE returns the first `10 03` at or after s + 2, or waits, and changes nothing else. Outside R86's
operand (s + 3 < |B|, a recognised type) and with P_ESC_AWARE_SCAN set this is the model's choice (log entry 13). -/
def Obligations.EndScanNaiveReturnsTheFirstEndMarker : Prop :=
  ∀ s k, ∃ r, exec (.endScanNaive k) s = .next { s with ret := .scan r } ∧
    (∀ e, r = .found e ↔ FirstPair s.buf 0x10#8 0x03#8 (k + 2) e) ∧ (r = .wait ↔ NoPair s.buf 0x10#8 0x03#8 (k + 2))

/-- R87: END_SCAN_AWARE stops at the first escape pair on its walk that is not `10 10`: an end marker ends the frame, any other pair aborts it;
it waits when the walk runs out of bytes or an ESC's partner has not arrived. It changes nothing else. Outside R86's
operand and with P_ESC_AWARE_SCAN not set this is the model's choice (log entry 13). -/
def Obligations.EndScanAwareWalksEscapePairs : Prop :=
  ∀ s k, ∃ r, exec (.endScanAware k) s = .next { s with ret := .scan r } ∧
    (∀ e, r = .found e ↔ AwareVisits s.buf (k + 2) e ∧ PairAt s.buf 0x10#8 0x03#8 e) ∧
    (∀ p, r = .abort p ↔ AwareVisits s.buf (k + 2) p ∧
      ∃ x, PairAt s.buf 0x10#8 x p ∧ x ≠ 0x03#8 ∧ x ≠ 0x10#8) ∧
    (r = .wait ↔ ∃ q, AwareVisits s.buf (k + 2) q ∧
      (s.buf[q]? = none ∨ (s.buf[q]? = some 0x10#8 ∧ s.buf[q + 1]? = none)))

/-! ### DRAIN -/

/-- R83: with no start marker in B, DRAIN keeps a final ESC if P_KEEP_TAIL_ESC is set, else nothing; it reports how many bytes it discarded,
when it discarded any; the FSM is searching (R91). -/
def Obligations.DrainWithoutAStartMarker : Prop :=
  ∀ s keep, NoPair s.buf 0x10#8 0x02#8 0 →
    keep = (if s.params.keepTailEsc = true ∧ s.buf.getLast? = some 0x10#8 then [0x10#8] else []) →
    exec .drain s = .next { s with
      buf := keep
      st := .searching
      events := s.events ++ (if keep.length < s.buf.length then [.framingError (s.buf.length - keep.length)] else []) }

/-- R84: a start marker without its type and length bytes is kept, the bytes before it go, nothing is emitted. -/
def Obligations.DrainWaitsForTheHeader : Prop :=
  ∀ s k, FirstPair s.buf 0x10#8 0x02#8 0 k → s.buf.length ≤ k + 3 →
    exec .drain s = .next { s with buf := s.buf.drop k, st := .headerPending }

/-- R85: an unrecognised type is reported, B[0..k] goes, and the loop starts again. -/
def Obligations.DrainSkipsAnUnrecognizedType : Prop :=
  ∀ s k t, FirstPair s.buf 0x10#8 0x02#8 0 k → k + 3 < s.buf.length → s.buf[k + 2]? = some t → t ≠ 0x93#8 → t ≠ 0x94#8 →
    exec .drain s =
      exec .drain { s with buf := s.buf.drop (k + 1), events := s.events ++ [.unrecognizedType t] }

/-- R81, R91: a header whose end scan waits is kept from its start marker on, nothing is emitted. -/
def Obligations.DrainWaitsForTheEndMarker : Prop :=
  ∀ s k t, FirstPair s.buf 0x10#8 0x02#8 0 k → k + 3 < s.buf.length → s.buf[k + 2]? = some t → t = 0x93#8 ∨ t = 0x94#8 →
    (if s.params.escAwareScan then endScanAware s.buf k else endScanNaive s.buf k) = .wait →
    exec .drain s = .next { s with buf := s.buf.drop k, st := .payloadPending }

/-- R81, R87: an abort is reported with the bytes of the aborted frame, B is kept from the stray escape on, and the loop starts again. -/
def Obligations.DrainAbortsAtAStrayEscape : Prop :=
  ∀ s k t p, FirstPair s.buf 0x10#8 0x02#8 0 k → k + 3 < s.buf.length → s.buf[k + 2]? = some t → t = 0x93#8 ∨ t = 0x94#8 →
    s.params.escAwareScan = true → endScanAware s.buf k = .abort p →
    k + 2 ≤ p ∧
    exec .drain s = exec .drain { s with buf := s.buf.drop p, events := s.events ++ [.frameAbort (p - k)] }

/-- R88: the frame from start marker through end marker goes to RX_PIPELINE with B already past it, and the loop starts again; the frame has at
least five bytes, both markers and a recognised type. -/
def Obligations.DrainExtractsAFrame : Prop :=
  ∀ s k t e, FirstPair s.buf 0x10#8 0x02#8 0 k → k + 3 < s.buf.length → s.buf[k + 2]? = some t → t = 0x93#8 ∨ t = 0x94#8 →
    (if s.params.escAwareScan then endScanAware s.buf k else endScanNaive s.buf k) = .found e →
    ∃ f u, f = (s.buf.take (e + 2)).drop k ∧ 5 ≤ f.length ∧ (∃ sp, f = [0x10#8, 0x02#8] ++ t :: sp ++ [0x10#8, 0x03#8]) ∧
      exec (.rxPipeline f) { s with buf := s.buf.drop (e + 2) } = .next u ∧ exec .drain s = exec .drain u

/-- R92: a pass that goes on removes at least one byte from the front of B, so DRAIN's loop needs no more passes than B has bytes and one; DRAIN
is the loop's pass followed by DRAIN. -/
def Obligations.DrainTerminates : Prop :=
  (∀ s t, drainPass s = .again t → (∃ n, 1 ≤ n ∧ n ≤ s.buf.length ∧ t.buf = s.buf.drop n) ∧ exec .drain s = exec .drain t) ∧
  (∀ s t, drainPass s = .stop t → exec .drain s = .next t) ∧
  (∀ s f, s.buf.length < f → exec .drain s = .next (drainLoop f s))

/-- R93: a DRAIN on what a DRAIN left changes nothing, and FEED of the empty chunk is a no-op between transactions (`settled`: R23 and the
bound of R90). -/
def Obligations.DrainIsIdempotent : Prop :=
  (∀ s, ∃ t, exec .drain s = .next t ∧ exec .drain t = .next t) ∧
  (∀ s, s.settled = true → exec (.feed []) s = .next s)

/-! ### FEED -/

/-- R80: FEED appends the chunk, drains, and then checks the bound (R90's OVERFLOW_CHECK). -/
def Obligations.FeedAppendsDrainsAndChecks : Prop :=
  ∀ s chunk, ∃ t, exec .drain { s with buf := s.buf ++ chunk } = .next t ∧
    ((∀ c, s.params.bufCap = some c → t.buf.length ≤ c) → exec (.feed chunk) s = .next t) ∧
    (∀ c, s.params.bufCap = some c → c < t.buf.length →
      exec (.feed chunk) s =
        .next { t with buf := [], st := .searching, events := t.events ++ [.bufferOverflow t.buf.length] })

/-- R23: after any FEED, from any state, B and st are one of the three cases, and st is a function of B. -/
def Obligations.FeedLeavesAKnownBuffer : Prop :=
  (∀ s chunk, ∃ t, exec (.feed chunk) s = .next t ∧ t.params = s.params ∧
    ((t.st = .searching ∧ (t.buf = [] ∨ (s.params.keepTailEsc = true ∧ t.buf = [0x10#8]))) ∨
     (t.st = .headerPending ∧ t.buf.take 2 = [0x10#8, 0x02#8] ∧ t.buf.length ≤ 3) ∨
     (t.st = .payloadPending ∧ t.buf.take 2 = [0x10#8, 0x02#8] ∧ 4 ≤ t.buf.length ∧
       (t.buf[2]? = some 0x93#8 ∨ t.buf[2]? = some 0x94#8) ∧
       (if s.params.escAwareScan then endScanAware t.buf 0 else endScanNaive t.buf 0) = .wait))) ∧
  (∀ p b v w, bufferShape p b v = true → bufferShape p b w = true → v = w)

/-- R89. With P_KEEP_TAIL_ESC set and no bound, two chunkings of one stream fed between transactions leave the same buffer and FSM state, and
the same events but for FRAMING_ERRORs. With it not set, a chunk that ends in the first byte of a start marker loses that byte. -/
def Obligations.FeedChunkingIndependence : Prop :=
  (∀ s cs ds, s.params.keepTailEsc = true → s.params.bufCap = none → s.settled = true → cs.flatten = ds.flatten →
    (feedAll cs s).buf = (feedAll ds s).buf ∧ (feedAll cs s).st = (feedAll ds s).st ∧
    (feedAll cs s).events.filter (!·.isFramingError) = (feedAll ds s).events.filter (!·.isFramingError)) ∧
  (∀ s, s.params.keepTailEsc = false → s.buf = [] →
    exec (.feed [0x10#8]) s = .next { s with st := .searching, events := s.events ++ [.framingError 1] })

/-- R95, for any empty buffer, whatever E holds: garbage without a start marker that a recognised type follows, and then a clean frame, in chunks
that do not separate the frame's first two bytes when P_KEEP_TAIL_ESC is not set, and within the bound, give exactly one delivered message, the
frame's, and no other frame. What is left is an empty buffer and a searching FSM. -/
def Obligations.ResynchronizationAfterGarbage : Prop :=
  ∀ s g w m cs, s.buf = [] → CleanFrame s.params w m → NoFrameStart g → cs.flatten = g ++ w →
    (s.params.keepTailEsc = false → NoCutAt cs (g.length + 1)) → fits s.params (g.length + w.length) = true →
    ∃ new, feedAll cs s = { s with st := .searching, events := s.events ++ new } ∧
      new.filter Event.fromPipeline = [.msgDelivered m]

/-- R96 with R90's bound, for any empty buffer, whatever E holds: a clean frame cut into chunks anywhere gives the same single message, unless
P_KEEP_TAIL_ESC is not set and a cut falls between its first two bytes. A bound of all the frame's bytes but one is enough. -/
def Obligations.SplitDeliveryOfACleanFrame : Prop :=
  ∀ s w m cs, s.buf = [] → CleanFrame s.params w m → cs.flatten = w → (s.params.keepTailEsc = false → NoCutAt cs 1) →
    fits s.params (w.length - 1) = true →
    feedAll cs s = { s with st := .searching, events := s.events ++ [.msgDelivered m] }

/-! ### Escape removal and stuffing -/

/-- R110: DESTUFF takes pairs from the left, one `10` for each, and passes every other byte. -/
def Obligations.DestuffCollapsesPairsFromTheLeft : Prop :=
  ∀ s l, ∃ out, exec (.destuff l) s = .next { s with ret := .bytes out } ∧
    (l = [] → out = []) ∧
    (∀ r, l = 0x10#8 :: 0x10#8 :: r →
      ∃ o, exec (.destuff r) s = .next { s with ret := .bytes o } ∧ out = 0x10#8 :: o) ∧
    (∀ a r, l = a :: r → (a ≠ 0x10#8 ∨ r.head? ≠ some 0x10#8) →
      ∃ o, exec (.destuff r) s = .next { s with ret := .bytes o } ∧ out = a :: o)

/-- R111 (a) to (d). -/
def Obligations.DestuffLaws : Prop :=
  (∀ s l, ∃ out, exec (.destuff l) s = .next { s with ret := .bytes out } ∧
    (out = l ↔ NoPair l 0x10#8 0x10#8 0) ∧
    l.length ≤ 2 * out.length ∧ out.length ≤ l.length ∧
    (∀ b ∈ out, b ∈ l) ∧ out.filter (· != 0x10#8) = l.filter (· != 0x10#8)) ∧
  (∀ s, exec (.destuff [0x10#8, 0x10#8]) s = exec (.destuff [0x10#8]) s)

/-- R112: every 0x10 is doubled, so the result is longer by their number. With P_ESC_TX_ALL not set, where no
rule uses STUFF, this is the model's choice (log entry 13). -/
def Obligations.StuffDoublesEveryEscape : Prop :=
  ∀ s x, ∃ out, exec (.stuff x) s = .next { s with ret := .bytes out } ∧
    out = x.flatMap (fun b => if b = 0x10#8 then [0x10#8, 0x10#8] else [b]) ∧
    out.length = x.length + x.count 0x10#8

/-- R113: only a checksum equal to ESC is doubled. With P_ESC_TX_ALL set, where no rule uses ESC_CKSUM, this is the model's
choice (log entry 13). -/
def Obligations.EscCksumDoublesOnlyTheEscape : Prop :=
  ∀ s (c : Byte), exec (.escCksum c) s =
    .next { s with ret := .bytes (if c = 0x10#8 then [0x10#8, 0x10#8] else [c]) }

/-- R114: DESTUFF undoes STUFF for every sequence, and undoes ESC_CKSUM behind H iff H holds no two adjacent 0x10 bytes. -/
def Obligations.DestuffInvertsStuffing : Prop :=
  (∀ s x, ∃ t out, exec (.stuff x) s = .next t ∧ t.ret = .bytes out ∧ exec (.destuff out) s = .next { s with ret := .bytes x }) ∧
  (∀ s h (c : Byte), ∃ t out, exec (.escCksum c) s = .next t ∧ t.ret = .bytes out ∧
    (exec (.destuff (h ++ out)) s = .next { s with ret := .bytes (h ++ [c]) } ↔ NoPair h 0x10#8 0x10#8 0))

/-! ### The checksum -/

/-- R115: CKSUM_COMPUTE gives (256 - sum mod 256) mod 256 and changes nothing else. -/
def Obligations.CksumComputeComplementsTheSum : Prop :=
  ∀ s x, exec (.cksumCompute x) s =
    .next { s with ret := .byte (BitVec.ofNat 8 ((256 - (x.map BitVec.toNat).sum % 256) % 256)) }

/-- R116, R117: CKSUM_VERIFY is true iff the sequence is not empty and the sum of all its bytes is 0 mod 256; R118: so it is true of any bytes
followed by their checksum. -/
def Obligations.CksumVerifyIffTheSumIsZero : Prop :=
  (∀ s u, exec (.cksumVerify u) s =
    .next { s with ret := .flag (decide (u ≠ [] ∧ (u.map BitVec.toNat).sum % 256 = 0)) }) ∧
  (∀ s b, ∃ c, exec (.cksumCompute b) s = .next { s with ret := .byte c } ∧
    exec (.cksumVerify (b ++ [c])) s = .next { s with ret := .flag true })

/-- R120: a change of one byte is detected; a reordering, changes that cancel mod 256, and 0x00 bytes lost or gained are not. -/
def Obligations.ChecksumDetection : Prop :=
  (∀ (a b : List Byte) (x y : Byte), x ≠ y → cksumVerify (a ++ x :: b) = true → cksumVerify (a ++ y :: b) = false) ∧
  (∀ u v : List Byte, u.Perm v → cksumVerify u = cksumVerify v) ∧
  (∀ u v : List Byte, u ≠ [] → v ≠ [] → (u.map BitVec.toNat).sum % 256 = (v.map BitVec.toNat).sum % 256 →
    cksumVerify u = cksumVerify v) ∧
  (∀ a b : List Byte, a ++ b ≠ [] → cksumVerify (a ++ 0x00#8 :: b) = cksumVerify (a ++ b))

/-! ### The codec -/

/-- R128: DECODE_93, its three failures and the message it gives; the bytes D[1] and D[8..11] play no part. For a D whose type byte
is not 0x93 this is the model's choice (log entry 13). -/
def Obligations.DecodeInboundFrame : Prop :=
  ∀ s (d : List Byte),
    (d.length < 13 → exec (.decode93 d) s = .next { s with ret := .decoded (.malformed 0x93#8 d.length 13) }) ∧
    ∀ n : Byte, d[12]? = some n →
      ((223 < n.toNat ∨ d.length < 13 + n.toNat) →
        exec (.decode93 d) s = .next { s with ret := .decoded (.malformed 0x93#8 d.length (13 + n.toNat)) }) ∧
      (n.toNat ≤ 223 → 13 + n.toNat ≤ d.length → ∃ m, exec (.decode93 d) s = .next { s with ret := .decoded (.msg m) } ∧
        d[2]? = some m.pri ∧
        (∃ q0 q1 q2 : Byte, d[3]? = some q0 ∧ d[4]? = some q1 ∧ d[5]? = some q2 ∧
          m.pgn.toNat = q0.toNat + 256 * q1.toNat + 65536 * q2.toNat) ∧
        d[6]? = some m.dst ∧ d[7]? = some m.src ∧ m.dlen = n ∧ m.data = (d.drop 13).take n.toNat)

/-- R129, R133: DECODE_94, its three failures and the message it gives, whose source is 0. For a D whose type byte is not 0x94 this is
the model's choice (log entry 13). -/
def Obligations.DecodeOutboundFrame : Prop :=
  ∀ s (d : List Byte),
    (d.length < 8 → exec (.decode94 d) s = .next { s with ret := .decoded (.malformed 0x94#8 d.length 8) }) ∧
    ∀ n : Byte, d[7]? = some n →
      ((223 < n.toNat ∨ d.length < 8 + n.toNat) →
        exec (.decode94 d) s = .next { s with ret := .decoded (.malformed 0x94#8 d.length (8 + n.toNat)) }) ∧
      (n.toNat ≤ 223 → 8 + n.toNat ≤ d.length → ∃ m, exec (.decode94 d) s = .next { s with ret := .decoded (.msg m) } ∧
        d[2]? = some m.pri ∧
        (∃ q0 q1 q2 : Byte, d[3]? = some q0 ∧ d[4]? = some q1 ∧ d[5]? = some q2 ∧
          m.pgn.toNat = q0.toNat + 256 * q1.toNat + 65536 * q2.toNat) ∧
        d[6]? = some m.dst ∧ m.src = 0x00#8 ∧ m.dlen = n ∧ m.data = (d.drop 8).take n.toNat)

/-- R130: every message a decoder gives, and every message RX_PIPELINE delivers, has dlen = |data| ≤ 223. For an operand
outside a rule's precondition this is the model's choice (log entries 12 and 13). -/
def Obligations.DeliveredMessagesAreValid : Prop :=
  ∀ s (l : List Byte) m,
    (exec (.decode93 l) s = .next { s with ret := .decoded (.msg m) } → m.dlen.toNat = m.data.length ∧ m.data.length ≤ 223) ∧
    (exec (.decode94 l) s = .next { s with ret := .decoded (.msg m) } → m.dlen.toNat = m.data.length ∧ m.data.length ≤ 223) ∧
    (exec (.rxPipeline l) s = .next { s with events := s.events ++ [.msgDelivered m] } →
      m.dlen.toNat = m.data.length ∧ m.data.length ≤ 223)

/-- R125, R126, R166: for a RawFrame, RX_PIPELINE emits one event and changes nothing else: the checksum's when it fails, else the outcome of
the decoder its type selects. -/
def Obligations.RxPipelineEmitsOneEvent : Prop :=
  ∀ s (t : Byte) sp u d c, t = 0x93#8 ∨ t = 0x94#8 → u = destuff (t :: sp) → u = d ++ [c] →
    (cksumVerify u = false → exec (.rxPipeline ([0x10#8, 0x02#8] ++ t :: sp ++ [0x10#8, 0x03#8])) s =
      .next { s with events := s.events ++ [.checksumMismatch c (cksumCompute d)] }) ∧
    (cksumVerify u = true → ∀ r, r = (if t = 0x93#8 then decode93 d else decode94 d) →
      exec (.rxPipeline ([0x10#8, 0x02#8] ++ t :: sp ++ [0x10#8, 0x03#8])) s =
        .next { s with events := s.events ++
          [match r with
           | .msg m => .msgDelivered m
           | .malformed t' h n => .malformedPayload t' h n] })

/-- R135, R136, R137: ENCODE's frame, byte by byte, or encode_error; it changes nothing else, so nothing is written to the transport. -/
def Obligations.EncodeBuildsTheFrame : Prop :=
  ∀ s (m : Request) (h : List Byte) (c : Byte),
    h = [0x94#8, BitVec.ofNat 8 (6 + m.data.length), BitVec.ofNat 8 m.pri.toNat, BitVec.ofNat 8 m.pgn.toNat,
      BitVec.ofNat 8 (m.pgn.toNat / 256), BitVec.ofNat 8 (m.pgn.toNat / 65536), m.dst, BitVec.ofNat 8 m.data.length] ++ m.data →
    c = BitVec.ofNat 8 ((256 - (h.map BitVec.toNat).sum % 256) % 256) →
    (m.data.length ≤ 223 → exec (.encode m) s = .next { s with ret := .encoded (.frame ([0x10#8, 0x02#8] ++
      (if s.params.escTxAll then (h ++ [c]).flatMap (fun b => if b = 0x10#8 then [0x10#8, 0x10#8] else [b])
       else h ++ (if c = 0x10#8 then [0x10#8, 0x10#8] else [c])) ++ [0x10#8, 0x03#8])) }) ∧
    (223 < m.data.length → exec (.encode m) s = .next { s with ret := .encoded (.encodeError m.data.length) })

/-- R66, R134: an encoded frame has 13 + dlen bytes and one more for each doubled ESC, and the request's source plays no part. -/
def Obligations.EncodeFrameSize : Prop :=
  (∀ s (m : Request) w, m.data.length ≤ 223 → exec (.encode m) s = .next { s with ret := .encoded (.frame w) } →
    (s.params.escTxAll = true → w.length = 13 + m.data.length + (encodeHead m ++ [cksumCompute (encodeHead m)]).count 0x10#8) ∧
    (s.params.escTxAll = false →
      w.length = (if cksumCompute (encodeHead m) = 0x10#8 then 14 + m.data.length else 13 + m.data.length))) ∧
  (∀ s (m : Request) (x : Byte), exec (.encode { m with src := x }) s = exec (.encode m) s)

/-! ### Transmit -/

/-- R138: TX_WRITE passes the frame to the transport, which takes its first n bytes, 0 ≤ n ≤ |W| (its next answer; all of them where it gives
none, R17); the result says whether that was all. The line grows by the bytes taken. W need not be a frame from ENCODE, and the lock plays
no part (log entry 13). -/
def Obligations.TxWriteReportsTheCount : Prop :=
  ∀ s (w : List Byte) n rest,
    ((s.answers = n :: rest ∧ n ≤ w.length) ∨ (s.answers = [] ∧ rest = [] ∧ n = w.length)) →
    ∃ t, exec (.txWrite w) s = .next t ∧
      t = { s with
        writes := s.writes ++ [{ passed := w, taken := n }]
        answers := rest
        ret := .written (if n = w.length then .ok else .writeError n w.length) } ∧
      t.line = s.line ++ w.take n

/-- R139 (with R136): a TX_SEND that finds the lock free encodes, writes and returns one result, and the lock is free after it; more than 223 data
bytes are an ENCODE_ERROR and nothing is written. B, st, E do not change. -/
def Obligations.TxSendEncodesAndWrites : Prop :=
  ∀ s (m : Request), s.txBusy = false →
    (223 < m.data.length →
      exec (.txSend m) s = .next { s with txResults := s.txResults ++ [.encodeError m.data.length] }) ∧
    (m.data.length ≤ 223 → ∃ w, exec (.encode m) s = .next { s with ret := .encoded (.frame w) } ∧
      ∀ n rest, ((s.answers = n :: rest ∧ n ≤ w.length) ∨ (s.answers = [] ∧ rest = [] ∧ n = w.length)) →
        exec (.txSend m) s = .next { s with
          writes := s.writes ++ [{ passed := w, taken := n }]
          answers := rest
          txResults := s.txResults ++ [if n = w.length then .ok else .writeError n w.length] })

/-- R139's `await not tx_busy` as the model has it (log entry 7): a TX_SEND that finds the lock held stays with its caller and changes nothing
of the block. -/
def Obligations.TxSendAwaitsTheLock : Prop :=
  ∀ s (m : Request), s.txBusy = true →
    exec (.txSend m) s = .next { s with inbox := s.inbox ++ [.transfer (encode (.txSend m))] }

/-! ### Frames -/

/-- R47, R171: an RX instruction changes only B, st, E (and the value handed to its caller); all the TX agent's state, the parameters and the
host's side stay. A wire token arrives as one chunk (log entry 2), and an operand outside a rule's precondition runs its pseudocode (log entries 12
and 13). -/
def Obligations.RxLeavesTheTransmitSide : Prop :=
  ∀ (i : Instr) s, i.owner = .rx →
    ∃ t, exec i s = .next t ∧ t = { s with buf := t.buf, st := t.st, events := t.events, ret := t.ret }

/-- R47, R171: an instruction of the TX agent, or one both use, leaves B, st, E and the parameters as they are. -/
def Obligations.TxLeavesTheReceiveSide : Prop :=
  ∀ (i : Instr) s, i.owner ≠ .rx →
    ∃ t, exec i s = .next t ∧ t.buf = s.buf ∧ t.st = s.st ∧ t.events = s.events ∧ t.params = s.params ∧
      t.port = s.port ∧ t.txBusy = s.txBusy

/-- R48: the pure operations only return a value, the same each time. DRAIN, RX_PIPELINE and TX_WRITE, which R48 counts among them, follow the
effects of their own rules instead (log entry 20). Operands and parameters outside a
rule's precondition are the model's choice (log entry 13). -/
def Obligations.PureOperationsOnlyReturnAValue : Prop :=
  ∀ (i : Instr) s,
    i = .startScan ∨ (∃ k, i = .endScanNaive k ∨ i = .endScanAware k) ∨
      (∃ l, i = .destuff l ∨ i = .cksumVerify l ∨ i = .decode93 l ∨ i = .decode94 l ∨ i = .cksumCompute l ∨ i = .stuff l) ∨
      (∃ m, i = .encode m) ∨ (∃ c, i = .escCksum c) →
    ∃ r, exec i s = .next { s with ret := r } ∧ exec i { s with ret := r } = .next { s with ret := r }

/-- R16, R22, R30: FEED, DRAIN and the wire tokens change only B, st and E and hand no value back. R125: RX_PIPELINE appends exactly one
MSG_DELIVERED, CHECKSUM_MISMATCH or MALFORMED_PAYLOAD to E and changes nothing else. Of an operand that is not a RawFrame this is the model's
choice (log entries 12 and 13), as is the arrival of a wire token as one chunk (log entry 2). -/
def Obligations.ReceiveFrame : Prop :=
  (∀ (i : Instr) s, i.owner = .rx →
    i = .drain ∨ (∃ c, i = .feed c) ∨ i = .startMark ∨ i = .endMark ∨ i = .escEsc ∨ (∃ l, i = .typeIn l ∨ i = .typeOut l) ∨
      (∃ t l, i = .unrecognizedType t l) ∨ (∃ x, i = .strayEsc x) →
    ∃ t, exec i s = .next t ∧ t = { s with buf := t.buf, st := t.st, events := t.events }) ∧
  (∀ f s, ∃ e, Event.fromPipeline e = true ∧ exec (.rxPipeline f) s = .next { s with events := s.events ++ [e] })

/-- R47: an RX instruction and a TX_SEND give the same state in either order. -/
def Obligations.AgentsCommute : Prop :=
  ∀ (i : Instr) (m : Request) s, i.owner = .rx →
    ∃ a b t, exec i s = .next a ∧ exec (.txSend m) a = .next t ∧ exec (.txSend m) s = .next b ∧ exec i b = .next t

/-- R30, R49: every instruction only appends to E, and what it appends does not depend on what E holds. -/
def Obligations.EventsOnlyGrow : Prop :=
  ∀ (i : Instr) (s : State), ∃ new, ∀ old, ∃ t, exec i { s with events := old } = .next t ∧ t.events = old ++ new

/-! ### Invariants -/

/-- R12, R31, R32: no step changes a parameter, and the lock stays free between transactions. -/
def Obligations.StepKeepsParametersAndLock : Prop :=
  ∀ s t, step s = .next t → t.params = s.params ∧ (s.txBusy = false → t.txBusy = false)

/-- R23, R90: every step keeps the buffer one of R23's cases, with the FSM state that goes with it, and within the bound. -/
def Obligations.StepKeepsTheBufferSettled : Prop :=
  ∀ s t, s.settled = true → step s = .next t → t.settled = true

/-- R27, R161: every step keeps every event in E one the block can emit: a valid message, an info in its range, an event its parameters allow, never
TRUNCATED_FRAME or REJECTED_COMMANDED_ADDRESS. -/
def Obligations.StepKeepsEventsLegal : Prop :=
  ∀ s t, s.events.all (Event.legal s.params) = true → step s = .next t → t.events.all (Event.legal t.params) = true

/-! ### Round trips -/

/-- R140, first row: with both escape parameters set, FEED of an encoded request into an empty buffer emits exactly its message and leaves the
buffer empty, for every request of at most 223 data bytes. -/
def Obligations.RoundTripWithFullEscaping : Prop :=
  ∀ s (m : Request) w, s.params.escTxAll = true → s.params.escAwareScan = true → s.buf = [] → m.data.length ≤ 223 →
    exec (.encode m) s = .next { s with ret := .encoded (.frame w) } →
    exec (.feed w) s = .next { s with st := .searching, events := s.events ++ [.msgDelivered (messageOf m)] }

/-- R140, second row: full stuffing and the naive scan round trip iff H ++ [C] has no 0x10 followed by 0x03. -/
def Obligations.RoundTripStuffedNaive : Prop :=
  ∀ s (m : Request) w, s.params.escTxAll = true → s.params.escAwareScan = false → s.buf = [] → m.data.length ≤ 223 →
    exec (.encode m) s = .next { s with ret := .encoded (.frame w) } →
    (exec (.feed w) s = .next { s with st := .searching, events := s.events ++ [.msgDelivered (messageOf m)] } ↔
      NoPair (encodeHead m ++ [cksumCompute (encodeHead m)]) 0x10#8 0x03#8 0)

/-- R140, third row, the source behaviour: the round trip holds iff the span sent has no `10 03` and H no two adjacent 0x10 bytes. -/
def Obligations.RoundTripSourceBehaviour : Prop :=
  ∀ s (m : Request) w, s.params.escTxAll = false → s.params.escAwareScan = false → s.buf = [] → m.data.length ≤ 223 →
    exec (.encode m) s = .next { s with ret := .encoded (.frame w) } →
    (exec (.feed w) s = .next { s with st := .searching, events := s.events ++ [.msgDelivered (messageOf m)] } ↔
      NoPair (spanOf w) 0x10#8 0x03#8 0 ∧ NoPair (encodeHead m) 0x10#8 0x10#8 0)

/-- R140, fourth row: narrow escaping and the aware scan round trip iff H holds no 0x10. -/
def Obligations.RoundTripNarrowAware : Prop :=
  ∀ s (m : Request) w, s.params.escTxAll = false → s.params.escAwareScan = true → s.buf = [] → m.data.length ≤ 223 →
    exec (.encode m) s = .next { s with ret := .encoded (.frame w) } →
    (exec (.feed w) s = .next { s with st := .searching, events := s.events ++ [.msgDelivered (messageOf m)] } ↔
      0x10#8 ∉ encodeHead m)

/-! ### Wire tokens (their arrival as one chunk is the model's choice, log entries 2 and 3) -/

/-- R56, R57, R84, R91: START into an empty buffer is a header without type and length; a recognised type byte with the length byte after it
makes it a payload. -/
def Obligations.TokensOpenAFrame : Prop :=
  (∀ s, s.buf = [] → fits s.params 2 = true →
    exec .startMark s = .next { s with buf := [0x10#8, 0x02#8], st := .headerPending }) ∧
  (∀ s len, s.buf = [0x10#8, 0x02#8] → fits s.params 4 = true →
    exec (.typeIn len) s = .next { s with buf := [0x10#8, 0x02#8, 0x93#8, len], st := .payloadPending } ∧
    exec (.typeOut len) s = .next { s with buf := [0x10#8, 0x02#8, 0x94#8, len], st := .payloadPending })

/-- R56, R73, R88: END at the end of a pending payload hands the frame to RX_PIPELINE and leaves the buffer empty; in the aware scan, where no
escape is open (behind an open one it is data: EscapesInsideAPayload). -/
def Obligations.EndMarkCompletesTheFrame : Prop :=
  ∀ s, bufferShape s.params s.buf .payloadPending = true →
    (s.params.escAwareScan = true → endsInOpenEscape (s.buf.drop 2) = false) →
    ∃ t, exec (.rxPipeline (s.buf ++ [0x10#8, 0x03#8])) { s with buf := [] } = .next t ∧
      exec .endMark s = .next { t with st := .searching }

/-- R56, R69, R70, R73, R87: in a pending payload ESCESC is kept in every scan. START and a stray escape are data to the naive scan. To the aware
scan, where no escape is open, both abort the frame: START is kept as a new header, and what is kept from a stray escape holds no start marker.
Where an escape is open, the token's ESC is its partner, and START, END and a stray escape are data. That a token arrives as one chunk is log
entry 2. -/
def Obligations.EscapesInsideAPayload : Prop :=
  ∀ s, bufferShape s.params s.buf .payloadPending = true → fits s.params (s.buf.length + 2) = true →
    exec .escEsc s = .next { s with buf := s.buf ++ [0x10#8, 0x10#8], st := .payloadPending } ∧
    (s.params.escAwareScan = false →
      exec .startMark s = .next { s with buf := s.buf ++ [0x10#8, 0x02#8], st := .payloadPending } ∧
      ∀ x, Instr.wellFormed (.strayEsc x) = true →
        exec (.strayEsc x) s = .next { s with buf := s.buf ++ [0x10#8, x], st := .payloadPending }) ∧
    (s.params.escAwareScan = true → endsInOpenEscape (s.buf.drop 2) = false →
      exec .startMark s = .next { s with
        buf := [0x10#8, 0x02#8]
        st := .headerPending
        events := s.events ++ [.frameAbort s.buf.length] } ∧
      ∀ x, Instr.wellFormed (.strayEsc x) = true →
        exec (.strayEsc x) s = .next { s with
          buf := []
          st := .searching
          events := s.events ++ [.frameAbort s.buf.length, .framingError 2] }) ∧
    (s.params.escAwareScan = true → endsInOpenEscape (s.buf.drop 2) = true →
      exec .startMark s = .next { s with buf := s.buf ++ [0x10#8, 0x02#8], st := .payloadPending } ∧
      exec .endMark s = .next { s with buf := s.buf ++ [0x10#8, 0x03#8], st := .payloadPending } ∧
      ∀ x, Instr.wellFormed (.strayEsc x) = true →
        exec (.strayEsc x) s = .next { s with buf := s.buf ++ [0x10#8, x], st := .payloadPending })

/-- R68, R85: into an empty buffer, a start marker with an unrecognised type and the byte after it is reported, the marker's first byte goes, and
the rest is scanned again: it is a new start marker, or it holds none. -/
def Obligations.UnrecognizedTypeResynchronizes : Prop :=
  ∀ s (t len : Byte), s.buf = [] → Instr.wellFormed (.unrecognizedType t len) = true → fits s.params 2 = true →
    (t = 0x10#8 ∧ len = 0x02#8 → exec (.unrecognizedType t len) s =
      .next { s with
        buf := [0x10#8, 0x02#8]
        st := .headerPending
        events := s.events ++ [.unrecognizedType t] }) ∧
    (¬ (t = 0x10#8 ∧ len = 0x02#8) → ∀ keep : List Byte,
      keep = (if s.params.keepTailEsc = true ∧ len = 0x10#8 then [0x10#8] else []) →
      exec (.unrecognizedType t len) s =
        .next { s with
          buf := keep
          st := .searching
          events := s.events ++ [.unrecognizedType t, .framingError (3 - keep.length)] })

/-- R73, R80, R191: in every state and whatever is pending, each wire token does what FEED of its bytes does. That this is a token's meaning is
the model's choice (log entries 2 and 3). -/
def Obligations.WireTokensAreFeedsOfTheirBytes : Prop :=
  ∀ s,
    exec .startMark s = exec (.feed [0x10#8, 0x02#8]) s ∧
    exec .endMark s = exec (.feed [0x10#8, 0x03#8]) s ∧
    exec .escEsc s = exec (.feed [0x10#8, 0x10#8]) s ∧
    (∀ len, exec (.typeIn len) s = exec (.feed [0x93#8, len]) s ∧ exec (.typeOut len) s = exec (.feed [0x94#8, len]) s) ∧
    (∀ t len, exec (.unrecognizedType t len) s = exec (.feed [0x10#8, 0x02#8, t, len]) s) ∧
    (∀ x, exec (.strayEsc x) s = exec (.feed [0x10#8, x]) s)

/-- R73, R82, R83, R84: while searching, with an empty buffer or a kept ESC, START is a new header and every other token is discarded and
reported, but for a final ESC that P_KEEP_TAIL_ESC keeps. That a token arrives as one chunk, and a type byte with its length byte, is log
entries 2 and 3. -/
def Obligations.TokensWhileSearching : Prop :=
  ∀ s, bufferShape s.params s.buf .searching = true →
    (fits s.params 2 = true → exec .startMark s = .next { s with buf := [0x10#8, 0x02#8], st := .headerPending }) ∧
    ∀ i y (keep : List Byte),
      (i = .endMark ∧ y = 0x03#8) ∨ (i = .escEsc ∧ y = 0x10#8) ∨ i = .typeIn y ∨ i = .typeOut y ∨
        (i = .strayEsc y ∧ i.wellFormed = true) →
      keep = (if s.params.keepTailEsc = true ∧ y = 0x10#8 then [0x10#8] else []) → fits s.params keep.length = true →
      exec i s = .next { s with
        buf := keep
        st := .searching
        events := s.events ++ [.framingError (s.buf.length + 2 - keep.length)] }
end

