-- ==== Sys2Proof/Laws/Scan.lean ====
section
/-! SUPPORT. What the scans find (40_synchronizer.md R82, R86, R87): the pair search, and the aware walk on a longer buffer. -/

namespace Sys2Proof.Machine

/-! ### The pair search -/

theorem pairIndex_shift (x y : Byte) (l : List Byte) :
    ∀ i, pairIndex x y i l = (pairIndex x y 0 l).map (· + i) := by
  induction l with
  | nil => intro i; simp [pairIndex]
  | cons a t ih =>
    intro i
    cases t with
    | nil => simp [pairIndex]
    | cons b t =>
      simp only [pairIndex]
      split
      · simp
      · rw [ih (i + 1), ih (0 + 1), Option.map_map]
        congr 1
        funext n
        simp only [Function.comp]
        omega

theorem pairIndex_cons (x y a : Byte) (l : List Byte) :
    pairIndex x y 0 (a :: l) =
      if a = x ∧ l.head? = some y then some 0 else (pairIndex x y 0 l).map (· + 1) := by
  cases l with
  | nil => simp [pairIndex]
  | cons b t =>
    simp only [pairIndex, List.head?_cons, Option.some.injEq]
    split
    · rfl
    · exact pairIndex_shift x y (b :: t) 1

theorem pairIndex_some (x y : Byte) (l : List Byte) :
    ∀ k, pairIndex x y 0 l = some k ↔ PairAt l x y k ∧ ∀ j < k, ¬ PairAt l x y j := by
  induction l with
  | nil => intro k; simp [pairIndex, PairAt]
  | cons a t ih =>
    intro k
    rw [pairIndex_cons]
    by_cases h : a = x ∧ t.head? = some y
    · rw [if_pos h]
      have h0 : PairAt (a :: t) x y 0 := by
        refine ⟨by simp [h.1], ?_⟩
        rw [List.getElem?_cons_succ, ← List.head?_eq_getElem?]; exact h.2
      constructor
      · rintro ⟨⟩
        exact ⟨h0, fun j hj => absurd hj (Nat.not_lt_zero j)⟩
      · rintro ⟨_, hmin⟩
        cases k with
        | zero => rfl
        | succ k => exact absurd h0 (hmin 0 (Nat.succ_pos k))
    · rw [if_neg h]
      have h0 : ¬ PairAt (a :: t) x y 0 := by
        rintro ⟨h1, h2⟩
        rw [List.getElem?_cons_succ, ← List.head?_eq_getElem?] at h2
        exact h ⟨by simpa using h1, h2⟩
      cases k with
      | zero =>
        constructor
        · intro hk
          cases hp : pairIndex x y 0 t <;> rw [hp] at hk <;> simp at hk
        · rintro ⟨hk, _⟩
          exact absurd hk h0
      | succ k =>
        have hstep : ∀ j, PairAt (a :: t) x y (j + 1) ↔ PairAt t x y j := fun j => by
          simp only [PairAt, List.getElem?_cons_succ]
        constructor
        · intro hk
          have hk' : pairIndex x y 0 t = some k := by
            cases hp : pairIndex x y 0 t with
            | none => rw [hp] at hk; simp at hk
            | some n => rw [hp] at hk; simp at hk; rw [hk]
          obtain ⟨h1, h2⟩ := (ih k).1 hk'
          refine ⟨(hstep k).2 h1, fun j hj => ?_⟩
          cases j with
          | zero => exact h0
          | succ j => rw [hstep]; exact h2 j (by omega)
        · rintro ⟨h1, h2⟩
          have : pairIndex x y 0 t = some k :=
            (ih k).2 ⟨(hstep k).1 h1, fun j hj => by rw [← hstep]; exact h2 (j + 1) (by omega)⟩
          rw [this]; rfl

theorem pairAt_lt {b : List Byte} {x y : Byte} {k : Nat} (h : PairAt b x y k) : k + 1 < b.length := by
  obtain ⟨_, h2⟩ := h
  by_contra hc
  rw [List.getElem?_eq_none (by omega)] at h2
  cases h2

theorem pairAt_drop (b : List Byte) (x y : Byte) (n k : Nat) : PairAt (b.drop n) x y k ↔ PairAt b x y (n + k) := by
  simp only [PairAt, List.getElem?_drop, Nat.add_assoc]

/-- `find` answers the least index where the pair stands (R14). -/
theorem find_eq_some (b : List Byte) (x y : Byte) (n k : Nat) : find b x y n = some k ↔ FirstPair b x y n k := by
  unfold find
  rw [pairIndex_shift]
  constructor
  · intro h
    obtain ⟨m, hm, rfl⟩ := Option.map_eq_some_iff.1 h
    obtain ⟨h1, h2⟩ := (pairIndex_some x y _ m).1 hm
    rw [pairAt_drop] at h1
    refine ⟨by omega, by rwa [Nat.add_comm], fun j hj hn => ?_⟩
    have := h2 (j - n) (by omega)
    rwa [pairAt_drop, show n + (j - n) = j by omega] at this
  · rintro ⟨h1, h2, h3⟩
    refine Option.map_eq_some_iff.2 ⟨k - n, (pairIndex_some x y _ _).2 ⟨?_, fun j hj => ?_⟩, by omega⟩
    · rw [pairAt_drop, show n + (k - n) = k by omega]; exact h2
    · rw [pairAt_drop]; exact h3 (n + j) (by omega) (by omega)

/-- `find` answers none when the pair stands nowhere from there on. -/
theorem find_eq_none (b : List Byte) (x y : Byte) (n : Nat) : find b x y n = none ↔ NoPair b x y n := by
  constructor
  · intro h j _ hn hp
    have hex : ∃ k, n ≤ k ∧ PairAt b x y k := ⟨j, hn, hp⟩
    classical
    have hf : FirstPair b x y n (Nat.find hex) :=
      ⟨(Nat.find_spec hex).1, (Nat.find_spec hex).2, fun i hi hni hpi => Nat.find_min hex hi ⟨hni, hpi⟩⟩
    rw [(find_eq_some b x y n _).2 hf] at h
    cases h
  · intro h
    cases hf : find b x y n with
    | none => rfl
    | some k =>
      obtain ⟨h1, h2, _⟩ := (find_eq_some b x y n k).1 hf
      exact absurd h2 (h k (by have := pairAt_lt h2; omega) h1)

theorem noPair_cons (a : Byte) (l : List Byte) (x y) : NoPair (a :: l) x y 0 ↔ ¬ (a = x ∧ l.head? = some y) ∧ NoPair l x y 0 := by
  rw [← find_eq_none, ← find_eq_none]
  unfold find
  simp only [List.drop_zero]
  rw [pairIndex_cons]
  split
  · simp_all
  · simp_all

theorem startScan_zero {b : List Byte} (h : b.take 2 = [Config.esc, Config.stx]) : startScan b = some 0 := by
  rcases b with _ | ⟨a, _ | ⟨c, r⟩⟩ <;> simp at h
  obtain ⟨rfl, rfl⟩ := h
  simp [startScan, find, pairIndex]

theorem byteAt_eq {b : List Byte} {i : Nat} {t : Byte} (h : b[i]? = some t) : byteAt b i = t := by
  rw [byteAt, List.getD_eq_getElem?_getD, h]; rfl

theorem isRecognized_iff {t : Byte} : isRecognized t = true ↔ t = Config.typeIn ∨ t = Config.typeOut := by simp [isRecognized]

/-! ### The aware walk -/

/-- A scan result with its indices moved by `n`. -/
def ScanResult.shift (n : Nat) : ScanResult → ScanResult
  | .wait => .wait
  | .found e => .found (e + n)
  | .abort p => .abort (p + n)

theorem awareFrom_shift (l : List Byte) (n : Nat) : ∀ p, awareFrom (p + n) l = (awareFrom p l).shift n := by
  induction l using destuff.induct with
  | case1 => intro p; rfl
  | case2 a => intro p; rfl
  | case3 a b rest h ih =>
    intro p
    obtain ⟨rfl, rfl⟩ := h
    have := ih (p + 2)
    simp only [awareFrom, if_true]
    rw [if_neg (by decide), if_neg (by decide), ← this]
    congr 1
    omega
  | case4 a b rest h ih =>
    intro p
    have := ih (p + 1)
    simp only [awareFrom]
    split
    · split
      · rfl
      · split
        · simp_all
        · rfl
    · rw [← this]
      congr 1
      omega

/-- What the walk has settled, more bytes do not change. -/
theorem awareFrom_append (l m : List Byte) :
    ∀ p, awareFrom p l ≠ .wait → awareFrom p (l ++ m) = awareFrom p l := by
  induction l using destuff.induct with
  | case1 => intro p h; exact absurd rfl h
  | case2 a => intro p h; exact absurd rfl h
  | case3 a b rest h ih =>
    intro p hw
    obtain ⟨rfl, rfl⟩ := h
    simp only [List.cons_append, awareFrom, if_true] at hw ⊢
    rw [if_neg (by decide)] at hw ⊢
    exact ih (p + 2) (by simpa using hw)
  | case4 a b rest h ih =>
    intro p hw
    simp only [List.cons_append, awareFrom] at hw ⊢
    split
    · split
      · rfl
      · split
        · simp_all
        · rfl
    · rename_i ha
      rw [if_neg ha] at hw
      exact ih (p + 1) hw

/-- A walk that waits without an open escape goes on with the bytes that follow. -/
theorem awareFrom_append_wait (l m : List Byte) :
    ∀ p, awareFrom p l = .wait → endsInOpenEscape l = false → awareFrom p (l ++ m) = awareFrom (p + l.length) m := by
  induction l using destuff.induct with
  | case1 => intro p _ _; simp
  | case2 a =>
    intro p _ ho
    have ha : a ≠ Config.esc := by simpa [endsInOpenEscape] using ho
    cases m with
    | nil => rfl
    | cons b m => simp only [List.cons_append, List.nil_append, awareFrom, if_neg ha, List.length_cons, List.length_nil]
  | case3 a b rest h ih =>
    intro p hw ho
    obtain ⟨rfl, rfl⟩ := h
    simp only [List.cons_append, awareFrom, if_true, endsInOpenEscape] at hw ho ⊢
    rw [if_neg (by decide)] at hw ⊢
    rw [ih (p + 2) (by simpa using hw) ho]
    congr 1
    simp; omega
  | case4 a b rest h ih =>
    intro p hw ho
    simp only [List.cons_append, awareFrom, endsInOpenEscape] at hw ho ⊢
    split
    · rename_i ha
      rw [if_pos ha] at hw
      split at hw
      · cases hw
      · split at hw
        · simp_all
        · cases hw
    · rename_i ha
      rw [if_neg ha] at hw ho
      have := ih (p + 1) hw ho
      simp only [List.cons_append] at this
      rw [this]
      congr 1
      simp; omega

/-- A walk that waits with an open escape takes the ESC that follows as its partner and goes on behind it. -/
theorem awareFrom_append_open (l m : List Byte) :
    ∀ p, awareFrom p l = .wait → endsInOpenEscape l = true →
      awareFrom p (l ++ Config.esc :: m) = awareFrom (p + l.length + 1) m := by
  induction l using destuff.induct with
  | case1 => intro p _ ho; cases ho
  | case2 a =>
    intro p _ ho
    obtain rfl : a = Config.esc := by simpa [endsInOpenEscape] using ho
    simp [awareFrom, show Config.esc ≠ Config.etx by decide]
  | case3 a b rest h ih =>
    intro p hw ho
    obtain ⟨rfl, rfl⟩ := h
    simp only [List.cons_append, awareFrom, if_true, endsInOpenEscape] at hw ho ⊢
    rw [if_neg (by decide)] at hw ⊢
    rw [ih (p + 2) (by simpa using hw) ho]
    congr 1
    simp only [List.length_cons]; omega
  | case4 a b rest h ih =>
    intro p hw ho
    simp only [List.cons_append, awareFrom, endsInOpenEscape] at hw ho ⊢
    split
    · rename_i ha
      rw [if_pos ha] at hw
      split at hw
      · cases hw
      · split at hw
        · simp_all
        · cases hw
    · rename_i ha
      rw [if_neg ha] at hw ho
      have := ih (p + 1) hw ho
      simp only [List.cons_append] at this
      rw [this]
      congr 1
      simp only [List.length_cons]; omega

/-- Where the walk from a visited index stops: at a visited index, with what it stopped for. -/
theorem awareFrom_visits (b : List Byte) (st : Nat) : ∀ n q, b.length - q = n → AwareVisits b st q →
   (∀ e, awareFrom q (b.drop q) = .found e → AwareVisits b st e ∧ PairAt b Config.esc Config.etx e) ∧
   (∀ e, awareFrom q (b.drop q) = .abort e → AwareVisits b st e ∧ ∃ x, PairAt b Config.esc x e ∧ x ≠ Config.etx ∧ x ≠ Config.esc) ∧
   (awareFrom q (b.drop q) = .wait → ∃ q, AwareVisits b st q ∧ (b[q]? = none ∨ (b[q]? = some Config.esc ∧ b[q + 1]? = none))) := by
  intro n
  induction n using Nat.strong_induction_on with
  | _ n ih =>
    intro q _ hv
    by_cases h1 : b.length ≤ q
    · rw [List.drop_eq_nil_of_le h1]
      refine ⟨(fun e h => by cases h), (fun e h => by cases h), fun _ => ⟨q, hv, Or.inl (by simp [h1])⟩⟩
    · have hq : b[q]? = some b[q] := List.getElem?_eq_getElem (by omega)
      rw [List.drop_eq_getElem_cons (by omega)]
      by_cases h2 : b.length ≤ q + 1
      · rw [List.drop_eq_nil_of_le h2]
        refine ⟨(fun e h => by cases h), (fun e h => by cases h), fun _ => ?_⟩
        by_cases he : b[q] = Config.esc
        · exact ⟨q, hv, Or.inr ⟨by rw [hq, he], by simp [h2]⟩⟩
        · exact ⟨q+1, .data hv hq he, Or.inl (by simp [h2])⟩
      · have hq1 : b[q+1]? = some b[q+1] := List.getElem?_eq_getElem (by omega)
        by_cases he : b[q] = Config.esc
        · rw [List.drop_eq_getElem_cons (by omega)]
          simp only [awareFrom, he, if_true]
          by_cases hx : b[q+1] = Config.etx
          · simp only [hx, if_true]
            refine ⟨fun e h => ?_, (fun e h => by cases h), (fun h => by cases h)⟩
            cases h
            exact ⟨hv, by rw [hq, he], by rw [hq1, hx]⟩
          · rw [if_neg hx]
            by_cases hx2 : b[q+1] = Config.esc
            · rw [if_pos hx2]
              exact ih (b.length - (q+2)) (by omega) (q+2) rfl (.pair hv ⟨by rw [hq, he], by rw [hq1, hx2]⟩)
            · rw [if_neg hx2]
              refine ⟨(fun e h => by cases h), fun e h => ?_, (fun h => by cases h)⟩
              cases h
              exact ⟨hv, b[q+1], ⟨by rw [hq, he], hq1⟩, hx, hx2⟩
        · have : awareFrom q (b[q] :: b.drop (q+1)) = awareFrom (q+1) (b.drop (q+1)) := by
            rw [List.drop_eq_getElem_cons (i := q+1) (by omega)]
            simp only [awareFrom, if_neg he]
          rw [this]
          exact ih (b.length - (q+1)) (by omega) (q+1) rfl (.data hv hq he)

end Sys2Proof.Machine
end

