-- ==== Sys2Proof/Laws/State.lean ====
section
/-! SUPPORT. What each operation of Machine/Ops.lean leaves in each field of State, so that no proof unfolds a record update. -/

namespace Sys2Proof.Machine

variable (s : State)

@[simp] theorem State.bufAppend_params (l : List Byte) : (s.bufAppend l).params = s.params := rfl
@[simp] theorem State.bufAppend_buf (l : List Byte) : (s.bufAppend l).buf = s.buf ++ l := rfl
@[simp] theorem State.bufAppend_st (l : List Byte) : (s.bufAppend l).st = s.st := rfl
@[simp] theorem State.bufAppend_events (l : List Byte) : (s.bufAppend l).events = s.events := rfl
@[simp] theorem State.bufAppend_txBusy (l : List Byte) : (s.bufAppend l).txBusy = s.txBusy := rfl
@[simp] theorem State.bufAppend_txResults (l : List Byte) : (s.bufAppend l).txResults = s.txResults := rfl
@[simp] theorem State.bufAppend_writes (l : List Byte) : (s.bufAppend l).writes = s.writes := rfl
@[simp] theorem State.bufAppend_ret (l : List Byte) : (s.bufAppend l).ret = s.ret := rfl
@[simp] theorem State.bufAppend_inbox (l : List Byte) : (s.bufAppend l).inbox = s.inbox := rfl
@[simp] theorem State.bufAppend_answers (l : List Byte) : (s.bufAppend l).answers = s.answers := rfl
@[simp] theorem State.bufAppend_port (l : List Byte) : (s.bufAppend l).port = s.port := rfl

@[simp] theorem State.bufDrop_params (k : Nat) : (s.bufDrop k).params = s.params := rfl
@[simp] theorem State.bufDrop_buf (k : Nat) : (s.bufDrop k).buf = s.buf.drop k := rfl
@[simp] theorem State.bufDrop_st (k : Nat) : (s.bufDrop k).st = s.st := rfl
@[simp] theorem State.bufDrop_events (k : Nat) : (s.bufDrop k).events = s.events := rfl
@[simp] theorem State.bufDrop_txBusy (k : Nat) : (s.bufDrop k).txBusy = s.txBusy := rfl
@[simp] theorem State.bufDrop_txResults (k : Nat) : (s.bufDrop k).txResults = s.txResults := rfl
@[simp] theorem State.bufDrop_writes (k : Nat) : (s.bufDrop k).writes = s.writes := rfl
@[simp] theorem State.bufDrop_ret (k : Nat) : (s.bufDrop k).ret = s.ret := rfl
@[simp] theorem State.bufDrop_inbox (k : Nat) : (s.bufDrop k).inbox = s.inbox := rfl
@[simp] theorem State.bufDrop_answers (k : Nat) : (s.bufDrop k).answers = s.answers := rfl
@[simp] theorem State.bufDrop_port (k : Nat) : (s.bufDrop k).port = s.port := rfl

@[simp] theorem State.bufClear_params (keep : List Byte) : (s.bufClear keep).params = s.params := rfl
@[simp] theorem State.bufClear_buf (keep : List Byte) : (s.bufClear keep).buf = keep := rfl
@[simp] theorem State.bufClear_st (keep : List Byte) : (s.bufClear keep).st = s.st := rfl
@[simp] theorem State.bufClear_events (keep : List Byte) : (s.bufClear keep).events = s.events := rfl
@[simp] theorem State.bufClear_txBusy (keep : List Byte) : (s.bufClear keep).txBusy = s.txBusy := rfl
@[simp] theorem State.bufClear_txResults (keep : List Byte) : (s.bufClear keep).txResults = s.txResults := rfl
@[simp] theorem State.bufClear_writes (keep : List Byte) : (s.bufClear keep).writes = s.writes := rfl
@[simp] theorem State.bufClear_ret (keep : List Byte) : (s.bufClear keep).ret = s.ret := rfl
@[simp] theorem State.bufClear_inbox (keep : List Byte) : (s.bufClear keep).inbox = s.inbox := rfl
@[simp] theorem State.bufClear_answers (keep : List Byte) : (s.bufClear keep).answers = s.answers := rfl
@[simp] theorem State.bufClear_port (keep : List Byte) : (s.bufClear keep).port = s.port := rfl

@[simp] theorem State.emit_params (e : Event) : (s.emit e).params = s.params := rfl
@[simp] theorem State.emit_buf (e : Event) : (s.emit e).buf = s.buf := rfl
@[simp] theorem State.emit_st (e : Event) : (s.emit e).st = s.st := rfl
@[simp] theorem State.emit_events (e : Event) : (s.emit e).events = s.events ++ [e] := rfl
@[simp] theorem State.emit_txBusy (e : Event) : (s.emit e).txBusy = s.txBusy := rfl
@[simp] theorem State.emit_txResults (e : Event) : (s.emit e).txResults = s.txResults := rfl
@[simp] theorem State.emit_writes (e : Event) : (s.emit e).writes = s.writes := rfl
@[simp] theorem State.emit_ret (e : Event) : (s.emit e).ret = s.ret := rfl
@[simp] theorem State.emit_inbox (e : Event) : (s.emit e).inbox = s.inbox := rfl
@[simp] theorem State.emit_answers (e : Event) : (s.emit e).answers = s.answers := rfl
@[simp] theorem State.emit_port (e : Event) : (s.emit e).port = s.port := rfl

@[simp] theorem State.setFsm_params (v : Fsm) : (s.setFsm v).params = s.params := rfl
@[simp] theorem State.setFsm_buf (v : Fsm) : (s.setFsm v).buf = s.buf := rfl
@[simp] theorem State.setFsm_st (v : Fsm) : (s.setFsm v).st = v := rfl
@[simp] theorem State.setFsm_events (v : Fsm) : (s.setFsm v).events = s.events := rfl
@[simp] theorem State.setFsm_txBusy (v : Fsm) : (s.setFsm v).txBusy = s.txBusy := rfl
@[simp] theorem State.setFsm_txResults (v : Fsm) : (s.setFsm v).txResults = s.txResults := rfl
@[simp] theorem State.setFsm_writes (v : Fsm) : (s.setFsm v).writes = s.writes := rfl
@[simp] theorem State.setFsm_ret (v : Fsm) : (s.setFsm v).ret = s.ret := rfl
@[simp] theorem State.setFsm_inbox (v : Fsm) : (s.setFsm v).inbox = s.inbox := rfl
@[simp] theorem State.setFsm_answers (v : Fsm) : (s.setFsm v).answers = s.answers := rfl
@[simp] theorem State.setFsm_port (v : Fsm) : (s.setFsm v).port = s.port := rfl

@[simp] theorem State.give_params (r : Returned) : (s.give r).params = s.params := rfl
@[simp] theorem State.give_buf (r : Returned) : (s.give r).buf = s.buf := rfl
@[simp] theorem State.give_st (r : Returned) : (s.give r).st = s.st := rfl
@[simp] theorem State.give_events (r : Returned) : (s.give r).events = s.events := rfl
@[simp] theorem State.give_txBusy (r : Returned) : (s.give r).txBusy = s.txBusy := rfl
@[simp] theorem State.give_txResults (r : Returned) : (s.give r).txResults = s.txResults := rfl
@[simp] theorem State.give_writes (r : Returned) : (s.give r).writes = s.writes := rfl
@[simp] theorem State.give_ret (r : Returned) : (s.give r).ret = r := rfl
@[simp] theorem State.give_inbox (r : Returned) : (s.give r).inbox = s.inbox := rfl
@[simp] theorem State.give_answers (r : Returned) : (s.give r).answers = s.answers := rfl
@[simp] theorem State.give_port (r : Returned) : (s.give r).port = s.port := rfl

@[simp] theorem State.setBusy_params (b : Bool) : (s.setBusy b).params = s.params := rfl
@[simp] theorem State.setBusy_buf (b : Bool) : (s.setBusy b).buf = s.buf := rfl
@[simp] theorem State.setBusy_st (b : Bool) : (s.setBusy b).st = s.st := rfl
@[simp] theorem State.setBusy_events (b : Bool) : (s.setBusy b).events = s.events := rfl
@[simp] theorem State.setBusy_txBusy (b : Bool) : (s.setBusy b).txBusy = b := rfl
@[simp] theorem State.setBusy_txResults (b : Bool) : (s.setBusy b).txResults = s.txResults := rfl
@[simp] theorem State.setBusy_writes (b : Bool) : (s.setBusy b).writes = s.writes := rfl
@[simp] theorem State.setBusy_ret (b : Bool) : (s.setBusy b).ret = s.ret := rfl
@[simp] theorem State.setBusy_inbox (b : Bool) : (s.setBusy b).inbox = s.inbox := rfl
@[simp] theorem State.setBusy_answers (b : Bool) : (s.setBusy b).answers = s.answers := rfl
@[simp] theorem State.setBusy_port (b : Bool) : (s.setBusy b).port = s.port := rfl

@[simp] theorem State.txReturn_params (r : TxResult) : (s.txReturn r).params = s.params := rfl
@[simp] theorem State.txReturn_buf (r : TxResult) : (s.txReturn r).buf = s.buf := rfl
@[simp] theorem State.txReturn_st (r : TxResult) : (s.txReturn r).st = s.st := rfl
@[simp] theorem State.txReturn_events (r : TxResult) : (s.txReturn r).events = s.events := rfl
@[simp] theorem State.txReturn_txBusy (r : TxResult) : (s.txReturn r).txBusy = s.txBusy := rfl
@[simp] theorem State.txReturn_txResults (r : TxResult) : (s.txReturn r).txResults = s.txResults ++ [r] := rfl
@[simp] theorem State.txReturn_writes (r : TxResult) : (s.txReturn r).writes = s.writes := rfl
@[simp] theorem State.txReturn_ret (r : TxResult) : (s.txReturn r).ret = s.ret := rfl
@[simp] theorem State.txReturn_inbox (r : TxResult) : (s.txReturn r).inbox = s.inbox := rfl
@[simp] theorem State.txReturn_answers (r : TxResult) : (s.txReturn r).answers = s.answers := rfl
@[simp] theorem State.txReturn_port (r : TxResult) : (s.txReturn r).port = s.port := rfl

@[simp] theorem State.transportWrite_params (w : List Byte) : (s.transportWrite w).params = s.params := rfl
@[simp] theorem State.transportWrite_buf (w : List Byte) : (s.transportWrite w).buf = s.buf := rfl
@[simp] theorem State.transportWrite_st (w : List Byte) : (s.transportWrite w).st = s.st := rfl
@[simp] theorem State.transportWrite_events (w : List Byte) : (s.transportWrite w).events = s.events := rfl
@[simp] theorem State.transportWrite_txBusy (w : List Byte) : (s.transportWrite w).txBusy = s.txBusy := rfl
@[simp] theorem State.transportWrite_txResults (w : List Byte) : (s.transportWrite w).txResults = s.txResults := rfl
@[simp] theorem State.transportWrite_writes (w : List Byte) : (s.transportWrite w).writes = s.writes ++ [{ passed := w, taken := s.nextCount w }] := rfl
@[simp] theorem State.transportWrite_ret (w : List Byte) : (s.transportWrite w).ret = s.ret := rfl
@[simp] theorem State.transportWrite_inbox (w : List Byte) : (s.transportWrite w).inbox = s.inbox := rfl
@[simp] theorem State.transportWrite_answers (w : List Byte) : (s.transportWrite w).answers = s.answers.tail := rfl
@[simp] theorem State.transportWrite_port (w : List Byte) : (s.transportWrite w).port = s.port := rfl

@[simp] theorem State.await_params (m : Request) : (s.await m).params = s.params := rfl
@[simp] theorem State.await_buf (m : Request) : (s.await m).buf = s.buf := rfl
@[simp] theorem State.await_st (m : Request) : (s.await m).st = s.st := rfl
@[simp] theorem State.await_events (m : Request) : (s.await m).events = s.events := rfl
@[simp] theorem State.await_txBusy (m : Request) : (s.await m).txBusy = s.txBusy := rfl
@[simp] theorem State.await_txResults (m : Request) : (s.await m).txResults = s.txResults := rfl
@[simp] theorem State.await_writes (m : Request) : (s.await m).writes = s.writes := rfl
@[simp] theorem State.await_ret (m : Request) : (s.await m).ret = s.ret := rfl
@[simp] theorem State.await_inbox (m : Request) : (s.await m).inbox = s.inbox ++ [.transfer (encode (.txSend m))] := rfl
@[simp] theorem State.await_answers (m : Request) : (s.await m).answers = s.answers := rfl
@[simp] theorem State.await_port (m : Request) : (s.await m).port = s.port := rfl

@[simp] theorem State.restart_params : (s.restart).params = s.params := rfl
@[simp] theorem State.restart_buf : (s.restart).buf = [] := rfl
@[simp] theorem State.restart_st : (s.restart).st = .searching := rfl
@[simp] theorem State.restart_events : (s.restart).events = [] := rfl
@[simp] theorem State.restart_txBusy : (s.restart).txBusy = false := rfl
@[simp] theorem State.restart_txResults : (s.restart).txResults = s.txResults := rfl
@[simp] theorem State.restart_writes : (s.restart).writes = s.writes := rfl
@[simp] theorem State.restart_ret : (s.restart).ret = .nothing := rfl
@[simp] theorem State.restart_inbox : (s.restart).inbox = s.inbox := rfl
@[simp] theorem State.restart_answers : (s.restart).answers = s.answers := rfl
@[simp] theorem State.restart_port : (s.restart).port = s.port := rfl

end Sys2Proof.Machine
end

