-- ==== Sys2Proof/Laws/Drain.lean ====
section
/-! SUPPORT. What one pass of DRAIN can do, and that the passes allowed are never used up (40_synchronizer.md R81, R92). -/

namespace Sys2Proof.Machine

@[simp] theorem rxPipeline_buf (f : List Byte) (s : State) : (rxPipeline f s).buf = s.buf := rfl
@[simp] theorem rxPipeline_params (f : List Byte) (s : State) : (rxPipeline f s).params = s.params := rfl

theorem startScan_some {b : List Byte} {k : Nat} (h : startScan b = some k) : FirstPair b Config.esc Config.stx 0 k :=
  (find_eq_some b _ _ 0 k).1 h

/-- Where the walk can stop: at a byte pair of the buffer, from its start on. -/
theorem awareFrom_bounds (l : List Byte) :
    ∀ p, (∀ e, awareFrom p l = .found e → p ≤ e ∧ PairAt l Config.esc Config.etx (e - p)) ∧
      (∀ q, awareFrom p l = .abort q → p ≤ q ∧ l[q - p]? = some Config.esc ∧
        ∃ x, l[q - p + 1]? = some x ∧ x ≠ Config.esc ∧ x ≠ Config.etx) := by
  induction l using destuff.induct with
  | case1 => intro p; exact ⟨(fun _ h => by cases h), (fun _ h => by cases h)⟩
  | case2 a => intro p; exact ⟨(fun _ h => by cases h), (fun _ h => by cases h)⟩
  | case3 a b rest h ih =>
    intro p
    obtain ⟨rfl, rfl⟩ := h
    simp only [awareFrom, if_true]
    rw [if_neg (by decide)]
    obtain ⟨h1, h2⟩ := ih (p + 2)
    constructor
    · intro e he
      obtain ⟨hp, hq1, hq2⟩ := h1 e he
      obtain ⟨n, rfl⟩ : ∃ n, e = p + 2 + n := ⟨e - (p + 2), by omega⟩
      refine ⟨by omega, ?_⟩
      rw [show p + 2 + n - (p + 2) = n by omega] at hq1 hq2
      rw [show p + 2 + n - p = n + 2 by omega]
      exact ⟨by simpa using hq1, by simpa using hq2⟩
    · intro e he
      obtain ⟨hp, hq1, x, hq2, hx⟩ := h2 e he
      obtain ⟨n, rfl⟩ : ∃ n, e = p + 2 + n := ⟨e - (p + 2), by omega⟩
      refine ⟨by omega, ?_⟩
      rw [show p + 2 + n - (p + 2) = n by omega] at hq1 hq2
      rw [show p + 2 + n - p = n + 2 by omega]
      exact ⟨by simpa using hq1, x, by simpa using hq2, hx⟩
  | case4 a b rest h ih =>
    intro p
    simp only [awareFrom]
    by_cases ha : a = Config.esc
    · subst ha
      by_cases hb : b = Config.etx
      · subst hb
        simp only [if_true]
        refine ⟨fun e he => ?_, fun _ h => by cases h⟩
        obtain rfl : p = e := by simpa using he
        exact ⟨le_refl _, by simp [PairAt]⟩
      · have hb' : b ≠ Config.esc := fun hc => h ⟨rfl, hc⟩
        simp only [if_true, if_neg hb, if_neg hb']
        refine ⟨(fun _ h => by cases h), fun q hq => ?_⟩
        obtain rfl : p = q := by simpa using hq
        exact ⟨le_refl _, by simp, b, by simp, hb', hb⟩
    · simp only [if_neg ha]
      obtain ⟨h1, h2⟩ := ih (p + 1)
      constructor
      · intro e he
        obtain ⟨hp, hq1, hq2⟩ := h1 e he
        obtain ⟨n, rfl⟩ : ∃ n, e = p + 1 + n := ⟨e - (p + 1), by omega⟩
        refine ⟨by omega, ?_⟩
        rw [show p + 1 + n - (p + 1) = n by omega] at hq1 hq2
        rw [show p + 1 + n - p = n + 1 by omega]
        exact ⟨by simpa using hq1, by simpa using hq2⟩
      · intro e he
        obtain ⟨hp, hq1, x, hq2, hx⟩ := h2 e he
        obtain ⟨n, rfl⟩ : ∃ n, e = p + 1 + n := ⟨e - (p + 1), by omega⟩
        refine ⟨by omega, ?_⟩
        rw [show p + 1 + n - (p + 1) = n by omega] at hq1 hq2
        rw [show p + 1 + n - p = n + 1 by omega]
        exact ⟨by simpa using hq1, x, by simpa using hq2, hx⟩

/-- An end marker found by either scan stands in the buffer, from two past the start marker on. -/
theorem endScan_found {p : Params} {b : List Byte} {k e : Nat} (h : endScan p b k = .found e) :
    k + 2 ≤ e ∧ PairAt b Config.esc Config.etx e := by
  unfold endScan at h
  split at h
  · obtain ⟨h1, h2⟩ := (awareFrom_bounds _ _).1 e h
    rw [pairAt_drop, show k + 2 + (e - (k + 2)) = e by omega] at h2
    exact ⟨h1, h2⟩
  · unfold endScanNaive at h
    cases hf : find b Config.esc Config.etx (k + 2) with
    | none => rw [hf] at h; cases h
    | some n =>
      rw [hf] at h
      obtain rfl : n = e := by simpa using h
      obtain ⟨h1, h2, _⟩ := (find_eq_some _ _ _ _ _).1 hf
      exact ⟨h1, h2⟩

/-- A stray escape stands in the buffer, from two past the start marker on, and only the aware scan stops at one. -/
theorem endScan_abort {p : Params} {b : List Byte} {k q : Nat} (h : endScan p b k = .abort q) :
    p.escAwareScan = true ∧ k + 2 ≤ q ∧ q + 1 < b.length ∧ b[q]? = some Config.esc := by
  unfold endScan at h
  split at h
  · rename_i ha
    obtain ⟨h1, h2, x, h3, _⟩ := (awareFrom_bounds _ _).2 q h
    rw [List.getElem?_drop, show k + 2 + (q - (k + 2)) = q by omega] at h2
    rw [List.getElem?_drop, show k + 2 + (q - (k + 2) + 1) = q + 1 by omega] at h3
    refine ⟨ha, h1, ?_, h2⟩
    by_contra hc
    rw [List.getElem?_eq_none (by omega)] at h3
    cases h3
  · unfold endScanNaive at h
    split at h <;> cases h

/-- A pass that goes on leaves a proper suffix of the buffer and the parameters (R92). -/
theorem drainPass_again {s t : State} (h : drainPass s = .again t) :
    (∃ n, 1 ≤ n ∧ n ≤ s.buf.length ∧ t.buf = s.buf.drop n) ∧ t.params = s.params := by
  unfold drainPass at h
  split at h
  · cases h
  · rename_i k hk
    have hlt := pairAt_lt (startScan_some hk).2.1
    split at h
    · cases h
    · split at h
      · split at h
        · cases h
        · rename_i q hq
          obtain ⟨_, h1, h2, _⟩ := endScan_abort hq
          cases h
          exact ⟨⟨q, by omega, by omega, rfl⟩, rfl⟩
        · rename_i e he
          have := pairAt_lt (endScan_found he).2
          cases h
          exact ⟨⟨e + 2, by omega, by omega, rfl⟩, rfl⟩
      · cases h
        exact ⟨⟨k + 1, by omega, by omega, rfl⟩, rfl⟩

theorem drainPass_again_lt {s t : State} (h : drainPass s = .again t) : t.buf.length < s.buf.length := by
  obtain ⟨⟨n, h1, h2, h3⟩, _⟩ := drainPass_again h
  rw [h3, List.length_drop]
  omega

/-- More passes than the buffer has bytes change nothing. -/
theorem drainLoop_fuel (f : Nat) : ∀ (g : Nat) (s : State), s.buf.length < f → s.buf.length < g →
    drainLoop f s = drainLoop g s := by
  induction f with
  | zero => intro g s h; omega
  | succ f ih =>
    intro g s hf hg
    cases g with
    | zero => omega
    | succ g =>
      simp only [drainLoop]
      split
      · rfl
      · rename_i t ht
        have := drainPass_again_lt ht
        exact ih g t (by omega) (by omega)

/-- DRAIN is its loop: a pass, and, when it goes on, DRAIN again (R81). -/
theorem drain_eq (s : State) :
    drain s = match drainPass s with
      | .stop t => t
      | .again t => drain t := by
  unfold drain
  rw [drainLoop]
  cases h : drainPass s with
  | stop t => rfl
  | again t =>
    have := drainPass_again_lt h
    exact drainLoop_fuel _ _ _ (by omega) (by omega)

/-- Induction along DRAIN's passes. -/
theorem drain_induction {motive : State → Prop}
    (stop : ∀ s t, drainPass s = .stop t → motive s)
    (again : ∀ s t, drainPass s = .again t → motive t → motive s) (s : State) : motive s := by
  induction hn : s.buf.length using Nat.strong_induction_on generalizing s with
  | _ n ih =>
    cases h : drainPass s with
    | stop t => exact stop s t h
    | again t => exact again s t h (ih _ (by have := drainPass_again_lt h; omega) t rfl)

end Sys2Proof.Machine
end

