-- ==== Sys2Proof/Laws/Encoding.lean ====
section
/-! SUPPORT. The operand forms of a transfer read back as they were written (log entry 1). -/

namespace Sys2Proof

/-- The PGN's bytes assemble to it (20_memory.md R41). -/
theorem pgnOf_bytes (g : Pgn) : pgnOf (g.extractLsb' 0 8) (g.extractLsb' 8 8) (g.extractLsb' 16 8) = g := by
  unfold pgnOf
  ext i hi
  simp only [BitVec.getElem_or, BitVec.getElem_setWidth, BitVec.getElem_shiftLeft, BitVec.getLsbD_extractLsb']
  rw [← BitVec.getLsbD_eq_getElem]
  by_cases h1 : i < 8
  · simp [h1, show i < 16 by omega]
  · by_cases h2 : i < 16
    · simp [h1, h2, show i - 8 < 8 by omega, show 8 + (i - 8) = i by omega]
    · simp [h1, h2, show ¬ i - 8 < 8 by omega, show i - 16 < 8 by omega, show 16 + (i - 16) = i by omega]

/-- The assembled PGN splits into its bytes. -/
theorem pgnBytes_of (q0 q1 q2 : Byte) : pgnBytes (pgnOf q0 q1 q2) = [q0, q1, q2] := by
  have hz : ∀ (q : Byte) (j : Nat), 8 ≤ j → q.getLsbD j = false := fun q j hj => BitVec.getLsbD_of_ge q j hj
  unfold pgnBytes pgnOf
  congr 1
  · ext i hi
    simp [BitVec.getLsbD_or, show i < 24 by omega, hi, show i < 16 by omega, ← BitVec.getLsbD_eq_getElem]
  · congr 1
    · ext i hi
      simp [BitVec.getLsbD_or, show 8 + i < 24 by omega, show 8 + i < 16 by omega, show i < 24 by omega, hi,
        ← BitVec.getLsbD_eq_getElem]
    · congr 1
      ext i hi
      simp [BitVec.getLsbD_or, show 16 + i < 24 by omega, show 16 + i - 8 = 8 + i by omega, show i < 24 by omega, hi,
        hz q0 (16 + i) (by omega), ← BitVec.getLsbD_eq_getElem]

theorem indexOf_indexBytes (f : Nat) : ∀ n ≤ f, indexOf (indexBytes f n) = n := by
  induction f with
  | zero => intro n h; have : n = 0 := by omega
            subst this; rfl
  | succ f ih =>
    intro n h
    unfold indexBytes
    split
    · simp_all [indexOf]
    · rename_i hn
      have := ih (n / 256) (by have := Nat.div_lt_self (Nat.pos_of_ne_zero hn) (by decide : 1 < 256); omega)
      simp only [indexOf, this, BitVec.toNat_ofNat]
      omega

theorem indexBytes_eq_nil {f n : Nat} (h : n ≤ f) : indexBytes f n = [] ↔ n = 0 := by
  cases f with
  | zero => simp [indexBytes]; omega
  | succ f => unfold indexBytes; split <;> simp_all

/-- No index is written with a zero high byte. -/
theorem indexBytes_getLast (f : Nat) : ∀ n ≤ f, (indexBytes f n).getLast? ≠ some 0#8 := by
  induction f with
  | zero => intro n _; simp [indexBytes]
  | succ f ih =>
    intro n h
    unfold indexBytes
    split
    · simp
    · rename_i hn
      have hle : n / 256 ≤ f := by
        have := Nat.div_lt_self (Nat.pos_of_ne_zero hn) (by decide : 1 < 256); omega
      by_cases h0 : n / 256 = 0
      · rw [(indexBytes_eq_nil hle).2 h0]
        simp only [List.getLast?_singleton, ne_eq, Option.some.injEq]
        intro hc
        have := congrArg BitVec.toNat hc
        simp at this
        omega
      · have hne : indexBytes f (n / 256) ≠ [] := fun hc => h0 ((indexBytes_eq_nil hle).1 hc)
        obtain ⟨b, bs, hb⟩ := List.exists_cons_of_ne_nil hne
        have := ih (n / 256) hle
        rw [hb] at this ⊢
        simpa using this

theorem decodeIndex_indexBytes (n : Nat) : decodeIndex (indexBytes n n) = .ok n := by
  unfold decodeIndex
  rw [if_neg (indexBytes_getLast n n (le_refl n)), indexOf_indexBytes n n (le_refl n)]

theorem decodeRequest_bytes (c : Byte) (m : Request) : decodeRequest c (requestBytes m) = .ok m := by
  obtain ⟨pri, pgn, dst, src, data⟩ := m
  simp only [requestBytes, pgnBytes, List.cons_append, List.nil_append, decodeRequest, pgnOf_bytes]
  have h1 : (pri.setWidth 8).toNat < 8 := by
    have := pri.isLt
    simp only [BitVec.toNat_setWidth]
    omega
  rw [if_pos h1]
  congr 2
  apply BitVec.eq_of_toNat_eq
  have := pri.isLt
  simp only [BitVec.toNat_setWidth]
  omega

end Sys2Proof
end

