-- ==== Sys2Proof/Laws/Frames.lean ====
section
/-! SUPPORT. What the transactions read and change: DRAIN, FEED and TX_SEND (20_memory.md R47), the cases of a settled buffer, and the checksum's
accumulator as a sum. -/

namespace Sys2Proof.Machine

/-- A pass reads only the parameters and the buffer, and appends to the events. -/
theorem drainPass_congr {s t : State} (hp : s.params = t.params) (hb : s.buf = t.buf) :
  ∃ new b, (∃ v, drainPass s = .stop { s with buf := b, st := v, events := s.events ++ new } ∧
      drainPass t = .stop { t with buf := b, st := v, events := t.events ++ new })
   ∨ (drainPass s = .again { s with buf := b, events := s.events ++ new } ∧
      drainPass t = .again { t with buf := b, events := t.events ++ new }) := by
  obtain ⟨p, b, st, ev, tb, tr, w, r, i, a, po⟩ := s
  obtain ⟨p', b', st', ev', tb', tr', w', r', i', a', po'⟩ := t
  cases hp; cases hb
  unfold drainPass
  dsimp only
  split
  · by_cases h : (keptTail p b).length < b.length
    · refine ⟨[.framingError (b.length - (keptTail p b).length)], keptTail p b, Or.inl ⟨.searching, ?_, ?_⟩⟩ <;>
        simp [noMarker, h, State.emit, State.bufClear, State.setFsm]
    · refine ⟨[], keptTail p b, Or.inl ⟨.searching, ?_, ?_⟩⟩ <;> simp [noMarker, h, State.bufClear, State.setFsm]
  · rename_i k _
    split
    · exact ⟨[], b.drop k, Or.inl ⟨.headerPending, by simp [State.bufDrop, State.setFsm],
          by simp [State.bufDrop, State.setFsm]⟩⟩
    · split
      · split
        · exact ⟨[], b.drop k, Or.inl ⟨.payloadPending, by simp [State.bufDrop, State.setFsm],
          by simp [State.bufDrop, State.setFsm]⟩⟩
        · exact ⟨_, _, Or.inr ⟨rfl, rfl⟩⟩
        · exact ⟨_, _, Or.inr ⟨rfl, rfl⟩⟩
      · exact ⟨_, _, Or.inr ⟨rfl, rfl⟩⟩

/-- DRAIN reads only the parameters and the buffer: everything it can do, said once. -/
theorem drain_congr (s : State) : ∀ t : State, s.params = t.params → s.buf = t.buf →
  ∃ new b v, drain s = { s with buf := b, st := v, events := s.events ++ new } ∧
    drain t = { t with buf := b, st := v, events := t.events ++ new } := by
  induction s using drain_induction with
  | stop s u h =>
    intro t hp hb
    obtain ⟨new, b, ⟨v, h1, h2⟩ | ⟨h1, h2⟩⟩ := drainPass_congr hp hb
    · exact ⟨new, b, v, by rw [drain_eq, h1], by rw [drain_eq, h2]⟩
    · rw [h] at h1; cases h1
  | again s u h ih =>
    intro t hp hb
    obtain ⟨new, b, ⟨v, h1, h2⟩ | ⟨h1, h2⟩⟩ := drainPass_congr hp hb
    · rw [h] at h1; cases h1
    · rw [h] at h1; cases h1
      obtain ⟨n2, b2, v, h3, h4⟩ := ih { t with buf := b, events := t.events ++ new } hp rfl
      refine ⟨new ++ n2, b2, v, ?_, ?_⟩
      · rw [drain_eq, h]; simp only; rw [h3]; simp
      · rw [drain_eq, h2]; simp only; rw [h4]; simp

/-- FEED reads only its chunk, the parameters and the buffer. -/
theorem feed_congr (c : List Byte) (s t : State) (hp : s.params = t.params) (hb : s.buf = t.buf) :
  ∃ new b v, feed c s = { s with buf := b, st := v, events := s.events ++ new } ∧
    feed c t = { t with buf := b, st := v, events := t.events ++ new } := by
  obtain ⟨new, b, v, h1, h2⟩ := drain_congr (s.bufAppend c) (t.bufAppend c) hp (by simp [hb])
  unfold feed
  rw [h1, h2]
  unfold overflowCheck
  simp only [State.bufAppend_params, hp]
  cases t.params.bufCap with
  | none => exact ⟨new, b, v, rfl, rfl⟩
  | some c =>
    simp only
    split
    · refine ⟨new ++ [.bufferOverflow b.length], [], .searching, ?_, ?_⟩ <;>
        simp [State.emit, State.bufClear, State.setFsm, State.bufAppend]
    · exact ⟨new, b, v, rfl, rfl⟩

/-- DRAIN changes B, st and E only. -/
theorem drain_frame (s : State) : drain s = { s with buf := (drain s).buf, st := (drain s).st, events := (drain s).events } := by
  induction s using drain_induction with
  | stop s t h =>
    have : drain s = t := by rw [drain_eq, h]
    rw [this]
    unfold drainPass at h
    repeat' split at h
    all_goals cases h
    all_goals first | rfl | (simp only [noMarker]; split <;> rfl)
  | again s t h ih =>
    have : drain s = drain t := by rw [drain_eq, h]
    rw [this]
    rw [ih]
    unfold drainPass at h
    repeat' split at h
    all_goals cases h
    all_goals rfl

/-- FEED changes B, st and E only. -/
theorem feed_frame (c : List Byte) (s : State) : feed c s = { s with buf := (feed c s).buf, st := (feed c s).st, events := (feed c s).events } := by
  have h := drain_frame (s.bufAppend c)
  unfold feed overflowCheck
  rw [h]
  repeat' split
  all_goals rfl

/-- TX_SEND neither reads nor changes the RX agent's state and the value last handed back. -/
theorem txSend_with_rx (m : Request) (s : State) (b : List Byte) (v : Fsm) (ev : List Event) (r : Returned) :
  txSend m { s with buf := b, st := v, events := ev, ret := r } = { txSend m s with buf := b, st := v, events := ev, ret := r } := by
  unfold txSend encodeAndWrite
  dsimp only
  split
  · rfl
  · simp only [State.setBusy_params]
    split <;> rfl

theorem txSend_frame (m : Request) (s : State) : (txSend m s).params = s.params ∧ (txSend m s).buf = s.buf ∧ (txSend m s).st = s.st ∧ (txSend m s).events = s.events ∧ (txSend m s).ret = s.ret := by
  unfold txSend encodeAndWrite
  split
  · exact ⟨rfl,rfl,rfl,rfl,rfl⟩
  · split <;> exact ⟨rfl,rfl,rfl,rfl,rfl⟩

/-! ### Settled buffers (10_state.md R23) -/

theorem bufferShape_searching (p : Params) (b : List Byte) : bufferShape p b .searching = true ↔ (b = [] ∨ (p.keepTailEsc = true ∧ b = [Config.esc])) := by simp [bufferShape]

theorem bufferShape_headerPending (p : Params) (b : List Byte) : bufferShape p b .headerPending = true ↔ (b.take 2 = [Config.esc, Config.stx] ∧ b.length ≤ 3) := by simp [bufferShape]

theorem bufferShape_payloadPending (p : Params) (b : List Byte) : bufferShape p b .payloadPending = true ↔ (b.take 2 = [Config.esc, Config.stx] ∧ 4 ≤ b.length ∧ isRecognized (byteAt b 2) = true ∧ endScan p b 0 = .wait) := by simp [bufferShape]

/-- What waits in a longer buffer waits alone. -/
theorem endScan_drop {p : Params} {b : List Byte} {k} (h : endScan p b k = .wait) : endScan p (b.drop k) 0 = .wait := by
  unfold endScan at *
  split at h
  · rename_i ha
    rw [if_pos ha]
    unfold endScanAware at *
    have := awareFrom_shift (b.drop (k+2)) k 2
    rw [show 2 + k = k+2 by omega, h] at this
    rw [List.drop_drop]
    cases hh : awareFrom 2 (b.drop (k+2)) <;> rw [hh] at this <;> simp_all [ScanResult.shift]
  · rename_i ha
    rw [if_neg ha]
    unfold endScanNaive at *
    have h' : find b Config.esc Config.etx (k+2) = none := by split at h <;> simp_all
    have : find (b.drop k) Config.esc Config.etx (0+2) = none := by
      rw [find_eq_none] at *
      intro j hj h2 hp
      rw [pairAt_drop] at hp
      exact h' (k+j) (by have := pairAt_lt hp; omega) (by omega) hp
    rw [this]

/-! ### The checksum's accumulator (41_escape_checksum.md R115) -/

theorem cksumAcc_eq_sum (x : List Byte) : cksumAcc x = (x.map BitVec.toNat).sum % 256 := by
  have : ∀ (x : List Byte) a, x.foldl (fun acc b => (acc + b.toNat) % 256) (a % 256) = (a + (x.map BitVec.toNat).sum) % 256 := by
    intro x
    induction x with
    | nil => simp
    | cons b r ih => intro a; simp only [List.foldl_cons, List.map_cons, List.sum_cons]; rw [show (a % 256 + b.toNat) % 256 = (a + b.toNat) % 256 by omega, ih]; congr 1; omega
  have := this x 0
  simpa [cksumAcc] using this

end Sys2Proof.Machine
end

