-- ==== Sys2Proof/Laws/PerInstr.lean ====
section
/-! SUPPORT. One lemma per instruction: its transfer decodes to it. -/

namespace Sys2Proof.Laws.RoundTrip

/-- A well-formed instruction's transfer decodes to the instruction. -/
def Statement (i : Instr) : Prop := i.wellFormed = true → decode (encode i) = .ok i

theorem feed (chunk : List Byte) : Statement (.feed chunk) := fun _ => rfl

theorem txSend (m : Request) : Statement (.txSend m) := fun _ =>
  congrArg (Except.map Instr.txSend) (decodeRequest_bytes _ m)

theorem drain : Statement .drain := fun _ => rfl

theorem startScan : Statement .startScan := fun _ => rfl

theorem endScanNaive (s : Nat) : Statement (.endScanNaive s) := fun _ =>
  congrArg (Except.map Instr.endScanNaive) (decodeIndex_indexBytes s)

theorem endScanAware (s : Nat) : Statement (.endScanAware s) := fun _ =>
  congrArg (Except.map Instr.endScanAware) (decodeIndex_indexBytes s)

theorem rxPipeline (f : List Byte) : Statement (.rxPipeline f) := fun _ => rfl

theorem destuff (sp : List Byte) : Statement (.destuff sp) := fun _ => rfl

theorem cksumVerify (u : List Byte) : Statement (.cksumVerify u) := fun _ => rfl

theorem decode93 (d : List Byte) : Statement (.decode93 d) := fun _ => rfl

theorem decode94 (d : List Byte) : Statement (.decode94 d) := fun _ => rfl

theorem encode (m : Request) : Statement (.encode m) := fun _ =>
  congrArg (Except.map Instr.encode) (decodeRequest_bytes _ m)

theorem cksumCompute (x : List Byte) : Statement (.cksumCompute x) := fun _ => rfl

theorem stuff (x : List Byte) : Statement (.stuff x) := fun _ => rfl

theorem escCksum (c : Byte) : Statement (.escCksum c) := fun _ => rfl

theorem txWrite (w : List Byte) : Statement (.txWrite w) := fun _ => rfl

theorem startMark : Statement .startMark := fun _ => rfl

theorem endMark : Statement .endMark := fun _ => rfl

theorem escEsc : Statement .escEsc := fun _ => rfl

theorem typeIn (len : Byte) : Statement (.typeIn len) := fun _ => rfl

theorem typeOut (len : Byte) : Statement (.typeOut len) := fun _ => rfl

theorem unrecognizedType (t len : Byte) : Statement (.unrecognizedType t len) := by
  intro h
  have ht : isRecognized t = false := by simpa [Instr.wellFormed] using h
  show decodeEsc [Config.stx, t, len] = _
  simp [decodeEsc, ht]

theorem strayEsc (x : Byte) : Statement (.strayEsc x) := by
  intro h
  simp only [Instr.wellFormed, Bool.not_eq_true', Bool.or_eq_false_iff, beq_eq_false_iff_ne] at h
  obtain ⟨⟨h1, h2⟩, h3⟩ := h
  show decodeEsc [x] = _
  simp [decodeEsc, h1, h2, h3]

end Sys2Proof.Laws.RoundTrip
end

