-- ==== Sys2Proof/Tests/Slice0.lean ====
section
/-! SUPPORT. The model's own tests: the well-formedness smoke test, decode tests written out from 30_encoding.md, one-step tests whose expected
values are those of spec/95_test_vectors.md (the vector is named), and a witness for every obligation with hypotheses. -/

namespace Sys2Proof.Tests

open Sys2Proof.Machine

/-- A state with the given parameters and buffer, otherwise as after reset. -/
def mk (p : Params) (b : List Byte) : State := { State.resetWith p with buf := b }

/-- A state between transactions with a pending payload. -/
def pending (p : Params) (b : List Byte) : State := { mk p b with st := .payloadPending }

def naive : Params := Params.source
def keep : Params := { Params.source with keepTailEsc := true }
def aware : Params := { Params.source with escAwareScan := true }
def full : Params := { Params.source with escTxAll := true, escAwareScan := true }
def txAll : Params := { Params.source with escTxAll := true }

/-- The state an outcome gives; reset where it gives none. -/
def after (o : Host.Outcome State Fault Refusal) : State :=
  match o with
  | .next t => t
  | _ => State.reset

/-- The smallest ENCODE frame, V-X1: pri 0, pgn 0, dst 0, no data. -/
def smallest : List Byte := [0x10#8, 0x02#8, 0x94#8, 0x06#8, 0x00#8, 0x00#8, 0x00#8, 0x00#8, 0x00#8, 0x00#8, 0x66#8, 0x10#8, 0x03#8]

def zeroRequest : Request := { pri := 0#3, pgn := 0#24, dst := 0#8, src := 0#8, data := [] }

def zeroMessage : Message := { pri := 0#8, pgn := 0#24, dst := 0#8, src := 0#8, dlen := 0#8, data := [] }

/-! ### Well-formedness: an ill-formed term for each check -/

theorem test_strayEsc_etx_illFormed : Instr.wellFormed (.strayEsc 0x03#8) = false := by decide
theorem test_strayEsc_stx_illFormed : Instr.wellFormed (.strayEsc 0x02#8) = false := by decide
theorem test_strayEsc_esc_illFormed : Instr.wellFormed (.strayEsc 0x10#8) = false := by decide
theorem test_unrecognizedType_in_illFormed : Instr.wellFormed (.unrecognizedType 0x93#8 0x00#8) = false := by decide
theorem test_unrecognizedType_out_illFormed : Instr.wellFormed (.unrecognizedType 0x94#8 0x00#8) = false := by decide

/-! ### Decoding: words written out from R56, R57, R68, R69, R74 -/

theorem test_decode_feed : decode [0x01#8, 0xAA#8, 0x10#8] = .ok (.feed [0xAA#8, 0x10#8]) := by decide
theorem test_decode_drain : decode [0x10#8] = .ok .drain := by decide
theorem test_decode_startScan : decode [0x11#8] = .ok .startScan := by decide
theorem test_decode_endScanNaive : decode [0x12#8, 0x05#8, 0x01#8] = .ok (.endScanNaive 261) := by decide
theorem test_decode_endScanAware : decode [0x13#8] = .ok (.endScanAware 0) := by decide
theorem test_decode_rxPipeline : decode [0x14#8, 0x10#8] = .ok (.rxPipeline [0x10#8]) := by decide
theorem test_decode_destuff : decode [0x15#8, 0x10#8] = .ok (.destuff [0x10#8]) := by decide
theorem test_decode_cksumVerify : decode [0x16#8, 0x01#8] = .ok (.cksumVerify [0x01#8]) := by decide
theorem test_decode_decode93 : decode [0x17#8, 0x93#8] = .ok (.decode93 [0x93#8]) := by decide
theorem test_decode_decode94 : decode [0x18#8, 0x94#8] = .ok (.decode94 [0x94#8]) := by decide
theorem test_decode_encode : decode [0x20#8, 0x07#8, 0x02#8, 0xF8#8, 0x01#8, 0xFF#8, 0x00#8] =
    .ok (.encode { pri := 7#3, pgn := 129026#24, dst := 0xFF#8, src := 0#8, data := [] }) := by decide
theorem test_decode_cksumCompute : decode [0x21#8] = .ok (.cksumCompute []) := by decide
theorem test_decode_stuff : decode [0x22#8, 0x10#8] = .ok (.stuff [0x10#8]) := by decide
theorem test_decode_escCksum : decode [0x23#8, 0x32#8] = .ok (.escCksum 0x32#8) := by decide
theorem test_decode_txWrite : decode [0x24#8, 0x10#8] = .ok (.txWrite [0x10#8]) := by decide
theorem test_decode_txSend : decode [0x02#8, 0x06#8, 0x02#8, 0xF8#8, 0x01#8, 0xFF#8, 0x23#8, 0x01#8] =
    .ok (.txSend { pri := 6#3, pgn := 129026#24, dst := 0xFF#8, src := 0x23#8, data := [0x01#8] }) := by decide
theorem test_decode_startMark : decode [0x10#8, 0x02#8] = .ok .startMark := by decide
theorem test_decode_endMark : decode [0x10#8, 0x03#8] = .ok .endMark := by decide
theorem test_decode_escEsc : decode [0x10#8, 0x10#8] = .ok .escEsc := by decide
theorem test_decode_strayEsc : decode [0x10#8, 0x55#8] = .ok (.strayEsc 0x55#8) := by decide
theorem test_decode_typeIn : decode [0x93#8, 0x0E#8] = .ok (.typeIn 0x0E#8) := by decide
theorem test_decode_typeOut : decode [0x94#8, 0x0E#8] = .ok (.typeOut 0x0E#8) := by decide
theorem test_decode_unrecognizedType : decode [0x10#8, 0x02#8, 0x55#8, 0x00#8] = .ok (.unrecognizedType 0x55#8 0x00#8) := by decide

theorem test_refuse_unassigned : decode [0x03#8] = .error (.unassignedCode 0x03#8) := by decide
theorem test_refuse_priority8 : decode [0x02#8, 0x08#8, 0#8, 0#8, 0#8, 0#8, 0#8] = .error (.priorityRange 0x08#8) := by decide
theorem test_refuse_recognizedType : decode [0x10#8, 0x02#8, 0x93#8, 0x00#8] = .error .notOneToken := by decide
theorem test_refuse_indexForm : decode [0x12#8, 0x00#8] = .error .indexForm := by decide
theorem test_refuse_operands : decode [0x11#8, 0x00#8] = .error (.operandLength 0x11#8) := by decide
theorem test_refuse_empty : decode [] = .error .empty := by decide

/-- Each table row's word runs as the first instruction after reset: three of them. -/
theorem test_fetch_start : (after (step (State.reset.withFetchWord 16 0x1002))).buf = [0x10#8, 0x02#8] := by decide
theorem test_fetch_end : (after (step (State.reset.withFetchWord 16 0x1003))).events = [.framingError 2] := by decide
theorem test_fetch_txSend : (after (step (State.reset.withFetchWord 8 0x02))).line = smallest := by decide

/-! ### One step: spec/95_test_vectors.md -/

/-- V-X1 read back: FEED of the smallest frame delivers its message. -/
theorem test_feed_frame : (after (exec (.feed smallest) State.reset)).events = [.msgDelivered zeroMessage] := by decide
/-- V-S12: nine bytes held against a cap of eight. -/
theorem test_feed_overflow :
    (after (exec (.feed [0xFF#8]) (mk { naive with bufCap := some 8 }
      [0x10#8, 0x02#8, 0x94#8, 0x0E#8, 0x06#8, 0x02#8, 0xF8#8, 0x01#8]))).events = [.bufferOverflow 9] := by decide
/-- V-S7. -/
theorem test_drain_unrecognized :
    (after (exec .drain (mk naive [0xAA#8, 0x10#8, 0x02#8, 0x55#8, 0x00#8, 0x10#8, 0x02#8, 0x93#8]))).buf =
      [0x10#8, 0x02#8, 0x93#8] := by decide
/-- V-S3 with KEEP. -/
theorem test_drain_keep : (after (exec .drain (mk keep [0xAA#8, 0xBB#8, 0x10#8]))).events = [.framingError 2] := by decide
/-- V-S3c. -/
theorem test_startScan :
    (after (exec .startScan (mk naive [0x00#8, 0x10#8, 0x03#8, 0x10#8, 0x02#8, 0x93#8]))).ret = .index (some 3) := by decide
/-- V-E2, naive. -/
theorem test_endScanNaive :
    (after (exec (.endScanNaive 0) (mk naive [0x10#8, 0x02#8, 0x94#8, 0x03#8, 0x10#8, 0x10#8, 0x03#8, 0x10#8, 0x03#8]))).ret =
      .scan (.found 5) := by decide
/-- V-E2, aware. -/
theorem test_endScanAware :
    (after (exec (.endScanAware 0) (mk naive [0x10#8, 0x02#8, 0x94#8, 0x03#8, 0x10#8, 0x10#8, 0x03#8, 0x10#8, 0x03#8]))).ret =
      .scan (.found 7) := by decide
/-- V-E4, aware. -/
theorem test_endScanAware_abort :
    (after (exec (.endScanAware 0) (mk naive [0x10#8, 0x02#8, 0x94#8, 0x06#8, 0x10#8, 0x55#8, 0x00#8]))).ret =
      .scan (.abort 4) := by decide
/-- V-P2. -/
theorem test_rxPipeline_malformed :
    (after (exec (.rxPipeline [0x10#8, 0x02#8, 0x94#8, 0x07#8, 0x06#8, 0x02#8, 0xF8#8, 0x01#8, 0xFF#8, 0x05#8, 0xAA#8, 0xB6#8,
      0x10#8, 0x03#8]) State.reset)).events = [.malformedPayload 0x94#8 9 13] := by decide
/-- V-P5. -/
theorem test_rxPipeline_shortest :
    (after (exec (.rxPipeline [0x10#8, 0x02#8, 0x94#8, 0x10#8, 0x03#8]) State.reset)).events =
      [.checksumMismatch 0x94#8 0x00#8] := by decide
/-- L2.6. -/
theorem test_destuff_three : destuff [0x10#8, 0x10#8, 0x10#8] = [0x10#8, 0x10#8] := by decide
theorem test_destuff_mixed :
    destuff [0x10#8, 0x55#8, 0x10#8, 0x10#8, 0x03#8] = [0x10#8, 0x55#8, 0x10#8, 0x03#8] := by decide
/-- L2.7. -/
theorem test_stuff : stuff [0x94#8, 0x10#8, 0x00#8, 0x03#8] = [0x94#8, 0x10#8, 0x10#8, 0x00#8, 0x03#8] := by decide
theorem test_escCksum : escCksum 0x10#8 = [0x10#8, 0x10#8] := by decide
/-- L2.8. -/
theorem test_cksumCompute_wraps : cksumCompute [0xFF#8, 0x01#8] = 0x00#8 := by decide
theorem test_cksumCompute_frame :
    cksumCompute [0x94#8, 0x06#8, 0x00#8, 0x00#8, 0x00#8, 0x00#8, 0x00#8, 0x00#8] = 0x66#8 := by decide
theorem test_cksumVerify_empty : cksumVerify [] = false := by decide
theorem test_cksumVerify_one : cksumVerify [0x01#8, 0xFF#8] = true := by decide
/-- L2.9, the example of R128 and its dlen 224. -/
theorem test_decode93 :
    decode93 [0x93#8, 0x0E#8, 0x02#8, 0x12#8, 0xF1#8, 0x01#8, 0xFF#8, 0x23#8, 0#8, 0#8, 0#8, 0#8, 0x03#8, 0xAA#8, 0xBB#8, 0xCC#8] =
      .msg { pri := 2#8, pgn := 127250#24, dst := 255#8, src := 0x23#8, dlen := 3#8, data := [0xAA#8, 0xBB#8, 0xCC#8] } := by
  decide
theorem test_decode93_cap :
    decode93 [0x93#8, 0x0E#8, 0x02#8, 0x12#8, 0xF1#8, 0x01#8, 0xFF#8, 0x23#8, 0#8, 0#8, 0#8, 0#8, 0xE0#8, 0xAA#8, 0xBB#8, 0xCC#8] =
      .malformed 0x93#8 16 237 := by decide
/-- L2.9. -/
theorem test_decode94 :
    decode94 [0x94#8, 0x06#8, 0x07#8, 0xFF#8, 0xFF#8, 0xFF#8, 0x00#8, 0x00#8] =
      .msg { pri := 7#8, pgn := 16777215#24, dst := 0#8, src := 0#8, dlen := 0#8, data := [] } := by decide
theorem test_decode94_short :
    decode94 [0x94#8, 0x06#8, 0x07#8, 0xFF#8, 0xFF#8, 0xFF#8, 0x00#8] = .malformed 0x94#8 7 8 := by decide
/-- V-X4, both values of P_ESC_TX_ALL. -/
theorem test_encode_narrow :
    encodeFrame naive { pri := 1#3, pgn := 0x10#24, dst := 0x10#8, src := 0x55#8, data := [0x10#8] } =
      .frame [0x10#8, 0x02#8, 0x94#8, 0x07#8, 0x01#8, 0x10#8, 0x00#8, 0x00#8, 0x10#8, 0x01#8, 0x10#8, 0x33#8, 0x10#8, 0x03#8] := by
  decide
theorem test_encode_full :
    encodeFrame txAll { pri := 1#3, pgn := 0x10#24, dst := 0x10#8, src := 0x55#8, data := [0x10#8] } =
      .frame [0x10#8, 0x02#8, 0x94#8, 0x07#8, 0x01#8, 0x10#8, 0x10#8, 0x00#8, 0x00#8, 0x10#8, 0x10#8, 0x01#8, 0x10#8, 0x10#8, 0x33#8,
        0x10#8, 0x03#8] := by decide
/-- V-W2 in small: the transport takes 7 of 13 bytes. -/
theorem test_txSend_short :
    (after (exec (.txSend zeroRequest) { State.reset with answers := [7] })).txResults = [.writeError 7 13] := by decide
/-- V-W3 in small: the transport takes nothing. -/
theorem test_txWrite_nothing : (after (exec (.txWrite smallest) { State.reset with answers := [0] })).line = [] := by decide
/-- V-S5. -/
theorem test_typeOut : (after (exec (.typeOut 0x0E#8) (mk naive [0x10#8, 0x02#8]))).st = .payloadPending := by decide
theorem test_typeIn : (after (exec (.typeIn 0x0E#8) (mk naive [0x10#8, 0x02#8]))).buf = [0x10#8, 0x02#8, 0x93#8, 0x0E#8] := by decide
/-- V-S16. -/
theorem test_escEsc : (after (exec .escEsc (pending aware [0x10#8, 0x02#8, 0x94#8, 0x06#8]))).st = .payloadPending := by decide
/-- V-S13 in small, aware. -/
theorem test_strayEsc :
    (after (exec (.strayEsc 0x55#8) (pending aware [0x10#8, 0x02#8, 0x94#8, 0x06#8]))).events =
      [.frameAbort 4, .framingError 2] := by decide
/-- V-S5b: the type is judged with the byte after it. -/
theorem test_unrecognizedType :
    (after (exec (.unrecognizedType 0x55#8 0x00#8) State.reset)).events = [.unrecognizedType 0x55#8, .framingError 3] := by decide
/-- V-S14's first step: the second start marker is found. -/
theorem test_unrecognizedType_esc :
    (after (exec (.unrecognizedType 0x10#8 0x02#8) State.reset)).buf = [0x10#8, 0x02#8] := by decide

/-! ### Witnesses: a state and operands that meet all the hypotheses of each obligation -/

theorem test_witness_StepWithoutATransaction :
    ({ State.reset with inbox := [.reset] } : State).inbox = .reset :: [] ∧ State.reset.port = .opened ∧ State.reset.inbox = [] ∧
    ({ State.reset with inbox := [.close] } : State).inbox = .close :: [] ∧
    ({ State.reset with port := .closed } : State).port = .closed ∧
    ({ State.reset with port := .failed } : State).port = .failed := by decide
theorem test_witness_StepRunsTheDecodedTransfer :
    (State.reset.withFetchWord 8 0x10).port = .opened ∧ (State.reset.withFetchWord 8 0x10).inbox = .transfer [0x10#8] :: [] ∧
    decode [0x10#8] = .ok .drain ∧ Instr.wellFormed .drain = true := by decide
theorem test_witness_UnassignedCodesAreRefused :
    (State.reset.placeTransfer [0x7E#8]).port = .opened ∧
    (State.reset.placeTransfer [0x7E#8]).inbox = .transfer (0x7E#8 :: []) :: [] ∧
    (0x7E#8).toNat ∉ [0x01, 0x02, 0x10, 0x11, 0x12, 0x13, 0x14, 0x15, 0x16, 0x17, 0x18, 0x20, 0x21, 0x22, 0x23, 0x24, 0x93, 0x94] := by
  decide
theorem test_witness_DecodeInvertsEncode : Instr.wellFormed (.strayEsc 0x04#8) = true := by decide
theorem test_witness_EncodeInvertsDecode : decode [0x12#8, 0x00#8, 0x01#8] = .ok (.endScanNaive 256) := by decide
theorem test_witness_DrainWithoutAStartMarker :
    NoPair [0xAA#8, 0x10#8] 0x10#8 0x02#8 0 ∧ keep.keepTailEsc = true ∧ [0xAA#8, 0x10#8].getLast? = some 0x10#8 ∧
    NoPair ([] : List Byte) 0x10#8 0x02#8 0 := by decide
theorem test_witness_DrainWaitsForTheHeader :
    FirstPair [0xAA#8, 0x10#8, 0x02#8, 0x55#8] 0x10#8 0x02#8 0 1 ∧ [0xAA#8, 0x10#8, 0x02#8, 0x55#8].length ≤ 1 + 3 := by decide
theorem test_witness_DrainSkipsAnUnrecognizedType :
    FirstPair [0x10#8, 0x02#8, 0x10#8, 0x02#8] 0x10#8 0x02#8 0 0 ∧ 0 + 3 < [0x10#8, 0x02#8, 0x10#8, 0x02#8].length ∧
    [0x10#8, 0x02#8, 0x10#8, 0x02#8][0 + 2]? = some 0x10#8 ∧ 0x10#8 ≠ 0x93#8 ∧ 0x10#8 ≠ 0x94#8 := by decide
theorem test_witness_DrainWaitsForTheEndMarker :
    FirstPair [0x10#8, 0x02#8, 0x94#8, 0x10#8] 0x10#8 0x02#8 0 0 ∧ 0 + 3 < [0x10#8, 0x02#8, 0x94#8, 0x10#8].length ∧
    [0x10#8, 0x02#8, 0x94#8, 0x10#8][0 + 2]? = some 0x94#8 ∧ (0x94#8 = 0x93#8 ∨ 0x94#8 = 0x94#8) ∧
    endScanNaive [0x10#8, 0x02#8, 0x94#8, 0x10#8] 0 = .wait ∧ endScanAware [0x10#8, 0x02#8, 0x94#8, 0x10#8] 0 = .wait := by decide
theorem test_witness_DrainAbortsAtAStrayEscape :
    FirstPair [0x10#8, 0x02#8, 0x93#8, 0x10#8, 0x55#8] 0x10#8 0x02#8 0 0 ∧ 0 + 3 < [0x10#8, 0x02#8, 0x93#8, 0x10#8, 0x55#8].length ∧
    [0x10#8, 0x02#8, 0x93#8, 0x10#8, 0x55#8][0 + 2]? = some 0x93#8 ∧ aware.escAwareScan = true ∧
    endScanAware [0x10#8, 0x02#8, 0x93#8, 0x10#8, 0x55#8] 0 = .abort 3 := by decide
theorem test_witness_DrainExtractsAFrame :
    FirstPair [0x10#8, 0x02#8, 0x94#8, 0x10#8, 0x03#8] 0x10#8 0x02#8 0 0 ∧ 0 + 3 < [0x10#8, 0x02#8, 0x94#8, 0x10#8, 0x03#8].length ∧
    [0x10#8, 0x02#8, 0x94#8, 0x10#8, 0x03#8][0 + 2]? = some 0x94#8 ∧
    endScanNaive [0x10#8, 0x02#8, 0x94#8, 0x10#8, 0x03#8] 0 = .found 3 ∧
    endScanAware [0x10#8, 0x02#8, 0x94#8, 0x10#8, 0x03#8] 0 = .found 3 := by decide
theorem test_witness_DrainTerminates :
    drainPass (mk naive smallest) = .again { mk naive [] with events := [.msgDelivered zeroMessage] } ∧
    drainPass (mk naive []) = .stop (mk naive []) ∧ (mk naive []).buf.length < 1 := by decide
theorem test_witness_DrainIsIdempotent :
    (pending naive [0x10#8, 0x02#8, 0x94#8, 0x00#8]).settled = true ∧ State.reset.settled = true := by decide
theorem test_witness_FeedAppendsDrainsAndChecks :
    ({ naive with bufCap := some 1 } : Params).bufCap = some 1 ∧
    (after (exec .drain (mk { naive with bufCap := some 1 } [0x10#8, 0x02#8]))).buf.length = 2 ∧
    (after (exec .drain (mk { naive with bufCap := some 2 } [0x10#8, 0x02#8]))).buf.length ≤ 2 := by decide
theorem test_witness_FeedLeavesAKnownBuffer : bufferShape keep [0x10#8] .searching = true := by decide
theorem test_witness_FeedChunkingIndependence :
    (mk keep []).params.keepTailEsc = true ∧ (mk keep []).params.bufCap = none ∧ (mk keep []).settled = true ∧
    [[0x10#8], [0x02#8, 0x94#8]].flatten = [[0x10#8, 0x02#8, 0x94#8]].flatten ∧
    (mk naive []).params.keepTailEsc = false ∧ (mk naive []).buf = [] := by decide
theorem test_witness_cleanFrame : CleanFrame naive smallest zeroMessage := by decide
theorem test_witness_ResynchronizationAfterGarbage :
    NoFrameStart [0xAA#8, 0x10#8, 0x02#8] ∧
    [[0xAA#8, 0x10#8], 0x02#8 :: smallest].flatten = [0xAA#8, 0x10#8, 0x02#8] ++ smallest ∧
    NoCutAt [[0xAA#8, 0x10#8], 0x02#8 :: smallest] ([0xAA#8, 0x10#8, 0x02#8].length + 1) ∧
    fits naive ([0xAA#8, 0x10#8, 0x02#8].length + smallest.length) = true ∧
    ({ mk naive [] with events := [.msgDelivered zeroMessage] } : State).buf = [] ∧
    ({ mk naive [] with events := [.msgDelivered zeroMessage] } : State).params = naive := by decide
theorem test_witness_SplitDeliveryOfACleanFrame :
    [smallest.take 2, smallest.drop 2].flatten = smallest ∧ NoCutAt [smallest.take 2, smallest.drop 2] 1 ∧
    fits naive (smallest.length - 1) = true ∧
    CleanFrame { naive with bufCap := some 12 } smallest zeroMessage ∧
    fits { naive with bufCap := some 12 } (smallest.length - 1) = true ∧
    ({ mk { naive with bufCap := some 12 } [] with events := [.msgDelivered zeroMessage] } : State).buf = [] := by decide
theorem test_witness_DestuffCollapsesPairsFromTheLeft :
    [0x10#8, 0x10#8] = 0x10#8 :: 0x10#8 :: [] ∧ ([] : List Byte).head? ≠ some 0x10#8 ∧ 0x55#8 ≠ 0x10#8 := by decide
theorem test_witness_ChecksumDetection :
    0x01#8 ≠ 0x02#8 ∧ cksumVerify ([] ++ 0x01#8 :: [0xFF#8]) = true ∧ [0x01#8, 0xFF#8].Perm [0xFF#8, 0x01#8] ∧
    ([0x01#8].map BitVec.toNat).sum % 256 = ([0x01#8, 0x00#8].map BitVec.toNat).sum % 256 := by decide
theorem test_witness_DecodeInboundFrame :
    ([] : List Byte).length < 13 ∧ (List.replicate 12 0x00#8 ++ [0xDF#8])[12]? = some 0xDF#8 ∧ (0xDF#8).toNat ≤ 223 ∧
    223 < (0xE0#8).toNat ∧ (List.replicate 12 0x00#8 ++ [0x01#8, 0xAA#8])[12]? = some 0x01#8 ∧
    13 + (0x01#8).toNat ≤ (List.replicate 12 0x00#8 ++ [0x01#8, 0xAA#8]).length := by decide
theorem test_witness_DecodeOutboundFrame :
    ([] : List Byte).length < 8 ∧ (List.replicate 7 0x00#8 ++ [0xE0#8])[7]? = some 0xE0#8 ∧ 223 < (0xE0#8).toNat ∧
    (List.replicate 7 0x00#8 ++ [0x00#8])[7]? = some 0x00#8 ∧ 8 + (0x00#8).toNat ≤ (List.replicate 7 0x00#8 ++ [0x00#8]).length := by
  decide
theorem test_witness_DeliveredMessagesAreValid :
    exec (.decode94 (List.replicate 8 0x00#8)) State.reset = .next { State.reset with ret := .decoded (.msg zeroMessage) } ∧
    exec (.decode93 (List.replicate 13 0x00#8)) State.reset = .next { State.reset with ret := .decoded (.msg zeroMessage) } ∧
    exec (.rxPipeline smallest) State.reset = .next { State.reset with events := State.reset.events ++ [.msgDelivered zeroMessage] } :=
  ⟨rfl, rfl, rfl⟩
theorem test_witness_RxPipelineEmitsOneEvent :
    [0x94#8] = destuff (0x94#8 :: []) ∧ [0x94#8] = [] ++ [0x94#8] ∧ cksumVerify [0x94#8] = false ∧
    [0x93#8, 0x6D#8] = destuff (0x93#8 :: [0x6D#8]) ∧ [0x93#8, 0x6D#8] = [0x93#8] ++ [0x6D#8] ∧ cksumVerify [0x93#8, 0x6D#8] = true := by
  decide
theorem test_witness_EncodeBuildsTheFrame :
    zeroRequest.data.length ≤ 223 ∧
    0x66#8 = BitVec.ofNat 8 ((256 - (([0x94#8, 0x06#8, 0#8, 0#8, 0#8, 0#8, 0#8, 0#8] : List Byte).map BitVec.toNat).sum % 256) % 256) := by decide
/-- The witness of the encode-error clauses of EncodeBuildsTheFrame and TxSendEncodesAndWrites. -/
theorem test_witness_requestTooLong : 223 < ({ zeroRequest with data := List.replicate 224 0#8 } : Request).data.length := by
  show 223 < (List.replicate 224 (0#8 : Byte)).length
  rw [List.length_replicate]
  omega
theorem test_witness_EncodeFrameSize :
    exec (.encode zeroRequest) State.reset = .next { State.reset with ret := .encoded (.frame smallest) } ∧
    exec (.encode zeroRequest) (mk txAll []) = .next { mk txAll [] with ret := .encoded (.frame smallest) } ∧
    zeroRequest.data.length ≤ 223 ∧ State.reset.params.escTxAll = false ∧ (mk txAll []).params.escTxAll = true :=
  ⟨rfl, rfl, by decide, rfl, rfl⟩
theorem test_witness_PureOperationsOnlyReturnAValue :
    exec .startScan State.reset = .next { State.reset with ret := .index none } ∧
    exec (.escCksum 0x10#8) State.reset = .next { State.reset with ret := .bytes [0x10#8, 0x10#8] } := ⟨rfl, rfl⟩
theorem test_witness_TxWriteReportsTheCount :
    ({ State.reset with answers := [13] } : State).answers = 13 :: [] ∧ 13 ≤ smallest.length ∧ State.reset.answers = [] := by decide
theorem test_witness_TxSendEncodesAndWrites :
    State.reset.txBusy = false ∧ zeroRequest.data.length ≤ 223 ∧ ({ State.reset with answers := [0] } : State).answers = 0 :: [] := by decide
theorem test_witness_TxSendAwaitsTheLock : ({ State.reset with txBusy := true } : State).txBusy = true := by decide
theorem test_witness_owner : Instr.owner .drain = .rx ∧ Instr.owner (.txSend zeroRequest) ≠ .rx := by decide
theorem test_witness_StepKeeps :
    (State.reset.withFetchWord 16 0x1002).settled = true ∧
    (State.reset.withFetchWord 16 0x1002).events.all (Event.legal State.reset.params) = true ∧
    (after (step (State.reset.withFetchWord 16 0x1002))).st = .headerPending := by decide
theorem test_witness_RoundTrips :
    full.escTxAll = true ∧ full.escAwareScan = true ∧ txAll.escTxAll = true ∧ txAll.escAwareScan = false ∧
    naive.escTxAll = false ∧ naive.escAwareScan = false ∧ aware.escTxAll = false ∧ aware.escAwareScan = true ∧
    encodeFrame full zeroRequest = .frame smallest ∧ encodeFrame txAll zeroRequest = .frame smallest ∧
    encodeFrame naive zeroRequest = .frame smallest ∧ encodeFrame aware zeroRequest = .frame smallest := by decide
theorem test_witness_TokensOpenAFrame :
    State.reset.buf = [] ∧ fits State.reset.params 2 = true ∧ (mk naive [0x10#8, 0x02#8]).buf = [0x10#8, 0x02#8] ∧
    fits { naive with bufCap := some 4 } 4 = true := by decide
theorem test_witness_EndMarkCompletesTheFrame :
    bufferShape aware [0x10#8, 0x02#8, 0x94#8, 0x6C#8] .payloadPending = true ∧
    endsInOpenEscape ([0x10#8, 0x02#8, 0x94#8, 0x6C#8].drop 2) = false := by decide
theorem test_witness_EscapesInsideAPayload :
    bufferShape naive [0x10#8, 0x02#8, 0x94#8, 0x10#8] .payloadPending = true ∧ fits { naive with bufCap := some 6 } (4 + 2) = true ∧
    Instr.wellFormed (.strayEsc 0x55#8) = true ∧
    bufferShape aware [0x10#8, 0x02#8, 0x94#8, 0x10#8] .payloadPending = true ∧
    endsInOpenEscape ([0x10#8, 0x02#8, 0x94#8, 0x10#8].drop 2) = true ∧
    bufferShape aware [0x10#8, 0x02#8, 0x94#8, 0x00#8] .payloadPending = true ∧
    endsInOpenEscape ([0x10#8, 0x02#8, 0x94#8, 0x00#8].drop 2) = false := by decide
theorem test_witness_UnrecognizedTypeResynchronizes :
    State.reset.buf = [] ∧ Instr.wellFormed (.unrecognizedType 0x10#8 0x02#8) = true ∧
    Instr.wellFormed (.unrecognizedType 0x55#8 0x10#8) = true ∧ fits { keep with bufCap := some 2 } 2 = true := by decide
theorem test_witness_TokensWhileSearching :
    bufferShape naive [] .searching = true ∧ bufferShape keep [0x10#8] .searching = true ∧
    fits { keep with bufCap := some 2 } 2 = true ∧ fits { keep with bufCap := some 1 } [0x10#8].length = true ∧
    fits { naive with bufCap := some 0 } ([] : List Byte).length = true ∧ Instr.wellFormed (.strayEsc 0x55#8) = true := by decide
/-- R73, aware scan at no pair boundary: END behind an open escape is data. -/
theorem test_endMark_openEscape :
    (after (exec .endMark (pending aware [0x10#8, 0x02#8, 0x94#8, 0x10#8]))).buf =
      [0x10#8, 0x02#8, 0x94#8, 0x10#8, 0x10#8, 0x03#8] := by decide
/-- R70, aware scan: a start marker inside a frame aborts it and is found by the next scan. -/
theorem test_startMark_abort :
    (after (exec .startMark (pending aware [0x10#8, 0x02#8, 0x94#8, 0x06#8]))).events = [.frameAbort 4] ∧
    (after (exec .startMark (pending aware [0x10#8, 0x02#8, 0x94#8, 0x06#8]))).buf = [0x10#8, 0x02#8] := by decide

end Sys2Proof.Tests
end

/-! ## 10_state.md: the state after reset -/

section
namespace Sys2Proof.Machine

variable (p : Params)

@[simp] theorem State.resetWith_params : (State.resetWith p).params = p := rfl
@[simp] theorem State.resetWith_buf : (State.resetWith p).buf = [] := rfl
@[simp] theorem State.resetWith_st : (State.resetWith p).st = .searching := rfl
@[simp] theorem State.resetWith_events : (State.resetWith p).events = [] := rfl
@[simp] theorem State.resetWith_txBusy : (State.resetWith p).txBusy = false := rfl

end Sys2Proof.Machine

namespace Sys2Proof.Proofs

open Sys2Proof.Machine

/-- Settles O1: each state element of R35 is a field `State.resetWith` sets. -/
theorem resetLeavesTheSpecsValues : Obligations.ResetLeavesTheSpecsValues := fun p =>
  ⟨State.resetWith_buf p, State.resetWith_st p, State.resetWith_events p, State.resetWith_txBusy p,
    State.resetWith_params p⟩

end Sys2Proof.Proofs
end

/-! ## 40_synchronizer.md: the scans, DRAIN's passes, FEED and the bound -/

section
namespace Sys2Proof.Machine

/-! ### The instructions' meanings -/

theorem exec_startScan (s : State) : exec .startScan s = .next (s.give (.index (startScan s.buf))) := rfl
theorem exec_drain (s : State) : exec .drain s = .next (drain s) := rfl
theorem exec_feed (c : List Byte) (s : State) : exec (.feed c) s = .next (feed c s) := rfl
theorem exec_rxPipeline (f : List Byte) (s : State) : exec (.rxPipeline f) s = .next (rxPipeline f s) := rfl

/-! ### START_SCAN, the type byte and the bytes around a marker (R57, R82) -/

theorem startScan_eq_some {b : List Byte} {k : Nat} :
    startScan b = some k ↔ FirstPair b Config.esc Config.stx 0 k :=
  find_eq_some b Config.esc Config.stx 0 k

theorem startScan_eq_none {b : List Byte} : startScan b = none ↔ NoPair b Config.esc Config.stx 0 :=
  find_eq_none b Config.esc Config.stx 0

theorem isRecognized_eq_true {t : Byte} : isRecognized t = true ↔ t = Config.typeIn ∨ t = Config.typeOut := by
  simp [isRecognized]

theorem byteAt_of_getElem? {b : List Byte} {i : Nat} {t : Byte} (h : b[i]? = some t) : byteAt b i = t := by
  simp [byteAt, h]

theorem drop_of_pairAt {b : List Byte} {x y : Byte} {k : Nat} (h : PairAt b x y k) :
    b.drop k = x :: y :: b.drop (k + 2) := by
  obtain ⟨hk, h0⟩ := List.getElem?_eq_some_iff.1 h.1
  obtain ⟨hk1, h1⟩ := List.getElem?_eq_some_iff.1 h.2
  rw [List.drop_eq_getElem_cons hk, List.drop_eq_getElem_cons hk1, h0, h1]

theorem take_of_pairAt {b : List Byte} {x y : Byte} {k : Nat} (h : PairAt b x y k) :
    b.take (k + 2) = b.take k ++ [x, y] := by
  rw [List.take_add, drop_of_pairAt h]
  rfl

theorem pairAt_take {b : List Byte} {x y : Byte} {k n : Nat} (h : PairAt b x y k) (hn : k + 1 < n) :
    PairAt (b.take n) x y k := by
  simpa [PairAt, List.getElem?_take_of_lt, hn, Nat.lt_of_succ_lt hn] using h

/-- A buffer that begins with the start marker has it at index 0. -/
theorem firstPair_zero_of_take_two {b : List Byte} {x y : Byte} (h : b.take 2 = [x, y]) : FirstPair b x y 0 0 := by
  obtain ⟨l, rfl⟩ : ∃ l, b = x :: y :: l := ⟨b.drop 2, by rw [← List.take_append_drop 2 b, h]; rfl⟩
  exact ⟨le_rfl, ⟨rfl, rfl⟩, fun j hj => absurd hj (Nat.not_lt_zero j)⟩

/-- The bytes from a start marker through an end marker behind the type byte (R88). -/
theorem slice_of_markers {b : List Byte} {x y z w t : Byte} {k e : Nat} (hs : PairAt b x y k) (ht : b[k + 2]? = some t)
    (he : PairAt b z w e) (hke : k + 3 ≤ e) :
    slice b k (e + 1) = [x, y] ++ t :: (b.take e).drop (k + 3) ++ [z, w] := by
  have hlen : (b.take e).length = e := List.length_take_of_le (by have := pairAt_lt he; omega)
  have htype : (b.take e).drop (k + 2) = t :: (b.take e).drop (k + 3) := by
    have : (b.take e)[k + 2]? = some t := by rwa [List.getElem?_take_of_lt (by omega)]
    obtain ⟨hlt, rfl⟩ := List.getElem?_eq_some_iff.1 this
    exact List.drop_eq_getElem_cons hlt
  calc slice b k (e + 1)
      = (b.take e ++ [z, w]).drop k := by rw [slice, take_of_pairAt he]
    _ = (b.take e).drop k ++ [z, w] := List.drop_append_of_le_length (by omega)
    _ = [x, y] ++ t :: (b.take e).drop (k + 3) ++ [z, w] := by
        rw [drop_of_pairAt (pairAt_take hs (by omega)), htype]; rfl

/-! ### The branches of a pass (R81) -/

theorem drain_of_stop {s t : State} (h : drainPass s = .stop t) : drain s = t := by rw [drain_eq, h]

theorem drain_of_again {s t : State} (h : drainPass s = .again t) : drain s = drain t := by rw [drain_eq, h]

theorem drain_params (s : State) : (drain s).params = s.params := by rw [drain_frame]

/-- NO_MARKER keeps the tail and reports the rest, when there is a rest (R83). -/
theorem noMarker_eq (s : State) : noMarker s = { s with
    buf := keptTail s.params s.buf
    events := s.events ++ (if (keptTail s.params s.buf).length < s.buf.length then
      [.framingError (s.buf.length - (keptTail s.params s.buf).length)] else []) } := by
  unfold noMarker
  split
  · next h => simp only [h, if_true]; rfl
  · next h => simp only [h, if_false, List.append_nil]; rfl

section
variable {s : State} {k : Nat}

theorem drainPass_of_noPair (h : NoPair s.buf Config.esc Config.stx 0) :
    drainPass s = .stop ((noMarker s).setFsm .searching) := by
  simp only [drainPass, startScan_eq_none.2 h]

theorem drainPass_of_short (h : FirstPair s.buf Config.esc Config.stx 0 k) (hlen : s.buf.length ≤ k + 3) :
    drainPass s = .stop ((s.bufDrop k).setFsm .headerPending) := by
  simp only [drainPass, startScan_eq_some.2 h, if_pos hlen]

theorem drainPass_of_unrecognized (h : FirstPair s.buf Config.esc Config.stx 0 k) (hlen : k + 3 < s.buf.length)
    (ht : isRecognized (byteAt s.buf (k + 2)) = false) :
    drainPass s = .again ((s.emit (.unrecognizedType (byteAt s.buf (k + 2)))).bufDrop (k + 1)) := by
  rw [← Bool.not_eq_true, isRecognized_eq_true] at ht
  simp only [drainPass, startScan_eq_some.2 h, if_neg (Nat.not_le.2 hlen), if_neg ht]

/-- With a whole header of a recognised type, the end scan decides the pass. -/
theorem drainPass_of_recognized (h : FirstPair s.buf Config.esc Config.stx 0 k) (hlen : k + 3 < s.buf.length)
    (ht : isRecognized (byteAt s.buf (k + 2)) = true) :
    (endScan s.params s.buf k = .wait → drainPass s = .stop ((s.bufDrop k).setFsm .payloadPending)) ∧
    (∀ p, endScan s.params s.buf k = .abort p → drainPass s = .again ((s.emit (.frameAbort (p - k))).bufDrop p)) ∧
    (∀ e, endScan s.params s.buf k = .found e →
      drainPass s = .again (rxPipeline (slice s.buf k (e + 1)) (s.bufDrop (e + 2)))) := by
  rw [isRecognized_eq_true] at ht
  refine ⟨fun hw => ?_, fun p hp => ?_, fun e he => ?_⟩
  · simp only [drainPass, startScan_eq_some.2 h, if_neg (Nat.not_le.2 hlen), if_pos ht, hw]
  · simp only [drainPass, startScan_eq_some.2 h, if_neg (Nat.not_le.2 hlen), if_pos ht, hp]
  · simp only [drainPass, startScan_eq_some.2 h, if_neg (Nat.not_le.2 hlen), if_pos ht, he]

end

/-- An end marker stands behind the type byte, which is no ESC (30_encoding.md R71). -/
theorem endScan_found_ge {p : Params} {b : List Byte} {k e : Nat} {t : Byte} (ht : b[k + 2]? = some t)
    (hesc : t ≠ Config.esc) (h : endScan p b k = .found e) : k + 3 ≤ e := by
  obtain ⟨hge, he, -⟩ := endScan_found h
  have hne : e ≠ k + 2 := by
    rintro rfl
    exact hesc (Option.some.inj (ht.symm.trans he))
  omega

/-! ### What DRAIN leaves is what DRAIN keeps (R93; the cases of 10_state.md R23) -/

theorem bufferShape_keptTail (p : Params) (b : List Byte) : bufferShape p (keptTail p b) .searching = true := by
  rw [bufferShape_searching, keptTail]
  split
  · next h => exact .inr ⟨h.1, rfl⟩
  · exact .inl rfl

theorem drainPass_stop_bufferShape {s t : State} (h : drainPass s = .stop t) :
    bufferShape s.params t.buf t.st = true := by
  cases hscan : startScan s.buf with
  | none =>
    rw [drainPass_of_noPair (startScan_eq_none.1 hscan), noMarker_eq] at h
    obtain rfl := Pass.stop.inj h
    exact bufferShape_keptTail s.params s.buf
  | some k =>
    have hfirst := startScan_eq_some.1 hscan
    have hmark : (s.buf.drop k).take 2 = [Config.esc, Config.stx] := by rw [drop_of_pairAt hfirst.2.1]; rfl
    by_cases hlen : s.buf.length ≤ k + 3
    · rw [drainPass_of_short hfirst hlen] at h
      obtain rfl := Pass.stop.inj h
      exact (bufferShape_headerPending s.params (s.buf.drop k)).2 ⟨hmark, by rw [List.length_drop]; omega⟩
    rw [Nat.not_le] at hlen
    cases ht : isRecognized (byteAt s.buf (k + 2)) with
    | false => rw [drainPass_of_unrecognized hfirst hlen ht] at h; cases h
    | true =>
      obtain ⟨hwait, habort, hfound⟩ := drainPass_of_recognized hfirst hlen ht
      cases hend : endScan s.params s.buf k with
      | wait =>
        rw [hwait hend] at h
        obtain rfl := Pass.stop.inj h
        exact (bufferShape_payloadPending s.params (s.buf.drop k)).2
          ⟨hmark, by rw [List.length_drop]; omega, by simpa [byteAt] using ht, endScan_drop hend⟩
      | abort p => rw [habort p hend] at h; cases h
      | found e => rw [hfound e hend] at h; cases h

theorem drain_bufferShape (s : State) : bufferShape s.params (drain s).buf (drain s).st = true := by
  induction s using drain_induction with
  | stop s t h => rw [drain_of_stop h]; exact drainPass_stop_bufferShape h
  | again s t h ih => rwa [drain_of_again h, ← (drainPass_again h).2]

theorem keptTail_of_bufferShape {p : Params} {b : List Byte} (h : bufferShape p b .searching = true) :
    keptTail p b = b := by
  obtain rfl | ⟨hp, rfl⟩ := (bufferShape_searching p b).1 h
  · simp [keptTail]
  · simp [keptTail, hp]

theorem noPair_of_bufferShape {p : Params} {b : List Byte} (h : bufferShape p b .searching = true) (x y : Byte) :
    NoPair b x y 0 := by
  intro j _ _ hpair
  have hlt := pairAt_lt hpair
  obtain rfl | ⟨-, rfl⟩ := (bufferShape_searching p b).1 h <;> simp at hlt

theorem drain_of_bufferShape {s : State} (h : bufferShape s.params s.buf s.st = true) : drain s = s := by
  obtain ⟨p, b, st, ev, tb, tr, w, r, i, a, po⟩ := s
  dsimp only at h
  cases st with
  | searching =>
    rw [drain_of_stop (drainPass_of_noPair (noPair_of_bufferShape h _ _)), noMarker_eq]
    simp [keptTail_of_bufferShape h, State.setFsm]
  | headerPending =>
    obtain ⟨hm, hlen⟩ := (bufferShape_headerPending p b).1 h
    exact drain_of_stop (drainPass_of_short (firstPair_zero_of_take_two hm) hlen)
  | payloadPending =>
    obtain ⟨hm, hlen, ht, hw⟩ := (bufferShape_payloadPending p b).1 h
    have hlen : 0 + 3 < b.length := hlen
    exact drain_of_stop ((drainPass_of_recognized (firstPair_zero_of_take_two hm) hlen ht).1 hw)

/-! ### The bound (R90) -/

theorem fits_eq_true {p : Params} {n : Nat} : fits p n = true ↔ ∀ c, p.bufCap = some c → n ≤ c := by
  unfold fits
  cases p.bufCap <;> simp

theorem overflowCheck_of_fits {s : State} (h : fits s.params s.buf.length = true) : overflowCheck s = s := by
  unfold overflowCheck
  split
  · rfl
  · next c hc => exact if_neg (Nat.not_lt.2 (fits_eq_true.1 h c hc))

theorem overflowCheck_of_lt {s : State} {c : Nat} (hc : s.params.bufCap = some c) (h : c < s.buf.length) :
    overflowCheck s = { s with buf := [], st := .searching, events := s.events ++ [.bufferOverflow s.buf.length] } := by
  simp only [overflowCheck, hc, if_pos h]
  rfl

end Sys2Proof.Machine

namespace Sys2Proof.Proofs

open Sys2Proof.Machine

/-- Settles O9: START_SCAN is R14's `find`, whose answer is the first pair or none. -/
theorem startScanReturnsTheFirstStartMarker : Obligations.StartScanReturnsTheFirstStartMarker := fun s =>
  ⟨startScan s.buf, exec_startScan s, fun _ => startScan_eq_some, startScan_eq_none⟩

/-- Settles O12: the pass stops at once with NO_MARKER. -/
theorem drainWithoutAStartMarker : Obligations.DrainWithoutAStartMarker := by
  intro s keep hno hkeep
  obtain rfl : keep = keptTail s.params s.buf := hkeep
  rw [exec_drain, drain_of_stop (drainPass_of_noPair hno), noMarker_eq]
  rfl

/-- Settles O13: the pass stops at once with the header pending. -/
theorem drainWaitsForTheHeader : Obligations.DrainWaitsForTheHeader := by
  intro s k hfirst hlen
  rw [exec_drain, drain_of_stop (drainPass_of_short hfirst hlen)]
  rfl

/-- Settles O14: the pass reports the type byte, drops the marker's first byte and goes on. -/
theorem drainSkipsAnUnrecognizedType : Obligations.DrainSkipsAnUnrecognizedType := by
  intro s k t hfirst hlen ht hin hout
  obtain rfl := byteAt_of_getElem? ht
  have hun : isRecognized (byteAt s.buf (k + 2)) = false := by simp [isRecognized, hin, hout]
  rw [exec_drain, drain_of_again (drainPass_of_unrecognized hfirst hlen hun)]
  rfl

/-- Settles O17: the end marker lies behind the type byte, so the frame holds both markers and the type between them. -/
theorem drainExtractsAFrame : Obligations.DrainExtractsAFrame := by
  intro s k t e hfirst hlen ht hrec (hfound : endScan s.params s.buf k = .found e)
  have hke : k + 3 ≤ e := endScan_found_ge ht (by rcases hrec with rfl | rfl <;> decide) hfound
  have hframe := slice_of_markers hfirst.2.1 ht (endScan_found hfound).2 hke
  have hpass := (drainPass_of_recognized hfirst hlen
    (by rw [byteAt_of_getElem? ht]; exact isRecognized_eq_true.2 hrec)).2.2 e hfound
  refine ⟨slice s.buf k (e + 1), _, rfl, ?_, ⟨_, hframe⟩, exec_rxPipeline _ _, ?_⟩
  · simp [hframe]
  · rw [exec_drain, drain_of_again hpass]
    rfl

/-- Settles O19: DRAIN leaves one of R23's cases and changes nothing in one. -/
theorem drainIsIdempotent : Obligations.DrainIsIdempotent := by
  refine ⟨fun s => ⟨drain s, exec_drain s, ?_⟩, fun s hs => ?_⟩
  · have hshape := drain_bufferShape s
    rw [← drain_params] at hshape
    rw [exec_drain, drain_of_bufferShape hshape]
  · obtain ⟨hshape, hfits⟩ := Bool.and_eq_true_iff.1 hs
    have happend : s.bufAppend [] = s := by simp [State.bufAppend]
    rw [exec_feed, feed, happend, drain_of_bufferShape hshape, overflowCheck_of_fits hfits]

/-- Settles O20: FEED's last part is the check, which acts above the bound only. -/
theorem feedAppendsDrainsAndChecks : Obligations.FeedAppendsDrainsAndChecks := by
  intro s chunk
  have hparams : (drain (s.bufAppend chunk)).params = s.params := drain_params _
  refine ⟨drain (s.bufAppend chunk), exec_drain _, fun hle => ?_, fun c hc hlt => ?_⟩
  · rw [exec_feed, feed, overflowCheck_of_fits (fits_eq_true.2 (by rwa [hparams]))]
  · rw [exec_feed, feed, overflowCheck_of_lt (by rwa [hparams]) hlt]

end Sys2Proof.Proofs
end

/-! ## 41_escape_checksum.md: escape removal and the checksum -/

section
namespace Sys2Proof.Machine

/-! ### The instructions' meanings -/

theorem exec_destuff (l : List Byte) (s : State) : exec (.destuff l) s = .next (s.give (.bytes (destuff l))) := rfl
theorem exec_cksumCompute (x : List Byte) (s : State) :
    exec (.cksumCompute x) s = .next (s.give (.byte (cksumCompute x))) := rfl
theorem exec_cksumVerify (u : List Byte) (s : State) :
    exec (.cksumVerify u) s = .next (s.give (.flag (cksumVerify u))) := rfl

/-! ### DESTUFF (R110, R111) -/

section
variable {a : Byte} {r : List Byte}

@[simp] theorem destuff_nil : destuff [] = [] := rfl

@[simp] theorem destuff_pair : destuff (Config.esc :: Config.esc :: r) = Config.esc :: destuff r := by
  rw [destuff, if_pos ⟨rfl, rfl⟩]

/-- A byte that does not open an escape pair passes, a lone ESC included. -/
theorem destuff_cons (h : ¬ (a = Config.esc ∧ r.head? = some Config.esc)) : destuff (a :: r) = a :: destuff r := by
  cases r with
  | nil => rfl
  | cons b r =>
    rw [destuff, if_neg]
    simpa using h

/-- The cases of R110's scan: an escape pair, or one byte that does not open a pair. -/
theorem destuff_induction {motive : List Byte → Prop} (nil : motive [])
    (pair : ∀ r, motive r → motive (Config.esc :: Config.esc :: r))
    (single : ∀ a r, ¬ (a = Config.esc ∧ r.head? = some Config.esc) → motive r → motive (a :: r))
    (l : List Byte) : motive l := by
  induction l using destuff.induct with
  | case1 => exact nil
  | case2 a => exact single a [] (by simp) nil
  | case3 a b r h ih =>
    obtain ⟨rfl, rfl⟩ := h
    exact pair r ih
  | case4 a b r h ih => exact single a (b :: r) (by simpa using h) ih

end

section
variable (l : List Byte)

theorem destuff_sublist : (destuff l).Sublist l := by
  induction l using destuff_induction with
  | nil => exact List.Sublist.slnil
  | pair r ih => rw [destuff_pair]; exact (ih.cons _).cons_cons _
  | single a r h ih => rw [destuff_cons h]; exact ih.cons_cons a

theorem length_le_two_mul_length_destuff : l.length ≤ 2 * (destuff l).length := by
  induction l using destuff_induction with
  | nil => exact Nat.zero_le _
  | pair r ih => rw [destuff_pair]; simp only [List.length_cons]; omega
  | single a r h ih => rw [destuff_cons h]; simp only [List.length_cons]; omega

theorem filter_ne_esc_destuff : (destuff l).filter (· != Config.esc) = l.filter (· != Config.esc) := by
  induction l using destuff_induction with
  | nil => rfl
  | pair r ih => simpa using ih
  | single a r h ih => rw [destuff_cons h, List.filter_cons, List.filter_cons, ih]

/-- The first escape pair makes the result shorter; without one every byte passes. -/
theorem destuff_eq_self_iff : destuff l = l ↔ NoPair l Config.esc Config.esc 0 := by
  induction l using destuff_induction with
  | nil => exact iff_of_true rfl fun j hj => absurd hj (Nat.not_lt_zero j)
  | pair r _ =>
    have hne : destuff r ≠ Config.esc :: r := fun h => by
      have := (destuff_sublist r).length_le
      rw [h, List.length_cons] at this
      omega
    simp [noPair_cons, hne]
  | single a r h ih => rw [destuff_cons h, noPair_cons, List.cons_inj_right, ih, and_iff_right h]

end

/-! ### The checksum is the complement of the bytes' sum (R115 to R118) -/

theorem cksumCompute_eq (x : List Byte) :
    cksumCompute x = BitVec.ofNat 8 ((256 - (x.map BitVec.toNat).sum % 256) % 256) := by
  rw [cksumCompute, cksumAcc_eq_sum]

/-- The checksum is the one byte that completes the sum to 0 mod 256. -/
theorem eq_cksumCompute_iff (c : Byte) (x : List Byte) :
    c = cksumCompute x ↔ ((x.map BitVec.toNat).sum + c.toNat) % 256 = 0 := by
  have hc := c.isLt
  rw [cksumCompute_eq, ← BitVec.toNat_inj, BitVec.toNat_ofNat]
  omega

@[simp] theorem cksumVerify_nil : cksumVerify [] = false := rfl

theorem cksumVerify_concat (d : List Byte) (c : Byte) : cksumVerify (d ++ [c]) = (c == cksumCompute d) := by
  simp [cksumVerify, butLast]

theorem cksumVerify_iff (u : List Byte) :
    cksumVerify u = true ↔ u ≠ [] ∧ (u.map BitVec.toNat).sum % 256 = 0 := by
  cases u using List.reverseRecOn with
  | nil => simp
  | append_singleton d c => simp [cksumVerify_concat, eq_cksumCompute_iff]

/-- CKSUM_VERIFY reads the sum mod 256 of a sequence that is not empty, and nothing else of it (R120). -/
theorem cksumVerify_congr {u v : List Byte} (hu : u ≠ []) (hv : v ≠ [])
    (h : (u.map BitVec.toNat).sum % 256 = (v.map BitVec.toNat).sum % 256) : cksumVerify u = cksumVerify v := by
  rw [Bool.eq_iff_iff, cksumVerify_iff, cksumVerify_iff, h, and_iff_right hu, and_iff_right hv]

theorem cksumVerify_perm {u v : List Byte} (h : u.Perm v) : cksumVerify u = cksumVerify v := by
  have hnil : u = [] ↔ v = [] := by rw [← List.length_eq_zero_iff, h.length_eq, List.length_eq_zero_iff]
  rw [Bool.eq_iff_iff, cksumVerify_iff, cksumVerify_iff, (h.map BitVec.toNat).sum_nat, Ne, hnil]

theorem sum_toNat_insert (a b : List Byte) (x : Byte) :
    ((a ++ x :: b).map BitVec.toNat).sum = ((a ++ b).map BitVec.toNat).sum + x.toNat := by
  simp only [List.map_append, List.map_cons, List.sum_append, List.sum_cons]
  omega

/-- With the other bytes given, one byte only at that place makes the sequence verify (R120). -/
theorem cksumVerify_insert_inj {a b : List Byte} {x y : Byte} (hx : cksumVerify (a ++ x :: b) = true)
    (hy : cksumVerify (a ++ y :: b) = true) : x = y := by
  have hsx := ((cksumVerify_iff _).1 hx).2
  have hsy := ((cksumVerify_iff _).1 hy).2
  rw [sum_toNat_insert] at hsx hsy
  have := x.isLt
  have := y.isLt
  exact BitVec.eq_of_toNat_eq (by omega)

end Sys2Proof.Machine

namespace Sys2Proof.Proofs

open Sys2Proof.Machine

/-- Settles O26: (a) the first pair shortens the sequence, (b) and (d) the result is a sublist that keeps a byte of each pair, (c) `10 10`
and `10` both give `10`. -/
theorem destuffLaws : Obligations.DestuffLaws :=
  ⟨fun s l => ⟨destuff l, exec_destuff l s, destuff_eq_self_iff l, length_le_two_mul_length_destuff l,
    (destuff_sublist l).length_le, fun _ hb => (destuff_sublist l).subset hb, filter_ne_esc_destuff l⟩,
   fun s => by rw [exec_destuff, exec_destuff, destuff_pair, destuff_cons (by simp)]⟩

/-- Settles O30: the accumulator reduced at every step is the full sum mod 256. -/
theorem cksumComputeComplementsTheSum : Obligations.CksumComputeComplementsTheSum := by
  intro s x
  rw [exec_cksumCompute, cksumCompute_eq]
  rfl

/-- Settles O31: the last byte is the checksum of the others iff it completes their sum to 0 mod 256. -/
theorem cksumVerifyIffTheSumIsZero : Obligations.CksumVerifyIffTheSumIsZero := by
  refine ⟨fun s u => ?_, fun s b => ⟨cksumCompute b, exec_cksumCompute b s, ?_⟩⟩
  · rw [exec_cksumVerify, Bool.eq_iff_iff.2 ((cksumVerify_iff u).trans decide_eq_true_iff.symm)]
    rfl
  · rw [exec_cksumVerify, cksumVerify_concat, beq_self_eq_true]
    rfl

/-- Settles O32: CKSUM_VERIFY sees only the sum mod 256, which one changed byte always moves. -/
theorem checksumDetection : Obligations.ChecksumDetection := by
  refine ⟨fun a b x y hne hx => ?_, fun u v => cksumVerify_perm, fun u v => cksumVerify_congr, fun a b hab => ?_⟩
  · exact Bool.eq_false_iff.2 fun hy => hne (cksumVerify_insert_inj hx hy)
  · exact cksumVerify_congr (by simp) hab (by rw [sum_toNat_insert]; rfl)

/-- Settles O25: each clause is one branch of R110's scan. -/
theorem destuffCollapsesPairsFromTheLeft : Obligations.DestuffCollapsesPairsFromTheLeft := by
  intro s l
  refine ⟨destuff l, exec_destuff l s, ?_, ?_, ?_⟩
  · rintro rfl
    exact destuff_nil
  · rintro r rfl
    exact ⟨destuff r, exec_destuff r s, destuff_pair⟩
  · rintro a r rfl h
    exact ⟨destuff r, exec_destuff r s, destuff_cons (not_and_or.2 h)⟩

end Sys2Proof.Proofs
end

/-! ## 42_codec.md: the receive pipeline and ENCODE -/

section
namespace Sys2Proof.Machine

/-! ### The parts of a RawFrame and of an unstuffed frame (R61, R125) -/

theorem spanOf_markers (a b y z : Byte) (l : List Byte) : spanOf ([a, b] ++ l ++ [y, z]) = l := by
  have hlen : ([a, b] ++ l ++ [y, z]).length - 2 = ([a, b] ++ l).length := by simp
  rw [spanOf, hlen, List.take_left]
  rfl

@[simp] theorem butLast_concat (d : List Byte) (c : Byte) : butLast (d ++ [c]) = d := List.dropLast_concat

@[simp] theorem receivedCksum_concat (d : List Byte) (c : Byte) : receivedCksum (d ++ [c]) = c := by
  rw [receivedCksum, List.getLast?_concat, Option.getD_some]

/-- The one byte of an unstuffed frame that has no others passes CKSUM_VERIFY only when it is 0x00. -/
theorem ne_nil_of_cksumVerify {d : List Byte} {c : Byte} (hv : cksumVerify (d ++ [c]) = true) (hc : c ≠ 0x00#8) :
    d ≠ [] := by
  rintro rfl
  rw [cksumVerify_concat, beq_iff_eq] at hv
  exact hc hv

/-! ### The event of a frame (R125, R126) -/

/-- The event that reports what a decoder gave (R125). -/
def DecodeResult.event : DecodeResult → Event
  | .msg m => .msgDelivered m
  | .malformed t have_ need => .malformedPayload t have_ need

theorem frameEvent_of_not_verify {d : List Byte} {c : Byte} (h : cksumVerify (d ++ [c]) = false) :
    frameEvent (d ++ [c]) = .checksumMismatch c (cksumCompute d) := by
  simp [frameEvent, h]

theorem frameEvent_of_verify {u : List Byte} (h : cksumVerify u = true) : frameEvent u = (decodeByType u).event := by
  rw [frameEvent, if_pos h]
  rfl

theorem decodeByType_cons (t : Byte) (d : List Byte) (c : Byte) :
    decodeByType (t :: d ++ [c]) = if t = Config.typeIn then decode93 (t :: d) else decode94 (t :: d) := by
  rw [decodeByType, butLast_concat, List.headD_cons]

/-- A recognised type byte survives DESTUFF, and CKSUM_VERIFY leaves it another byte behind it: it is the type byte of the decode input. -/
theorem decode_input_of_destuff {t c : Byte} {sp d : List Byte} (ht : t = Config.typeIn ∨ t = Config.typeOut)
    (hu : destuff (t :: sp) = d ++ [c]) (hv : cksumVerify (d ++ [c]) = true) : ∃ r, d = t :: r := by
  have hesc : t ≠ Config.esc := by rcases ht with rfl | rfl <;> decide
  have hzero : t ≠ 0x00#8 := by rcases ht with rfl | rfl <;> decide
  rw [destuff_cons fun h => hesc h.1] at hu
  cases d with
  | nil =>
    obtain ⟨rfl, -⟩ := List.cons.inj hu
    exact absurd rfl (ne_nil_of_cksumVerify hv hzero)
  | cons a r => exact ⟨r, by rw [(List.cons.inj hu).1]⟩

/-! ### ENCODE (R135 to R137) -/

theorem exec_encode (m : Request) (s : State) : exec (.encode m) s = .next (s.give (.encoded (encodeFrame s.params m))) := rfl

theorem stuff_eq_flatMap (x : List Byte) :
    stuff x = x.flatMap fun b => if b = Config.esc then [Config.esc, Config.esc] else [b] := by
  induction x with
  | nil => rfl
  | cons b x ih =>
    rw [stuff, List.flatMap_cons, ih]
    split <;> rfl

theorem pgnBytes_eq (g : Pgn) :
    pgnBytes g = [BitVec.ofNat 8 g.toNat, BitVec.ofNat 8 (g.toNat / 256), BitVec.ofNat 8 (g.toNat / 65536)] := by
  simp [pgnBytes, BitVec.extractLsb', Nat.shiftRight_eq_div_pow]

theorem length_encodePayload (m : Request) : (encodePayload m).length = 6 + m.data.length := by
  simp only [encodePayload, pgnBytes, List.length_cons, List.length_append, List.length_nil]
  omega

/-- R63 with R137's length byte. -/
theorem encodeHead_eq (m : Request) :
    encodeHead m = [0x94#8, BitVec.ofNat 8 (6 + m.data.length), BitVec.ofNat 8 m.pri.toNat, BitVec.ofNat 8 m.pgn.toNat,
      BitVec.ofNat 8 (m.pgn.toNat / 256), BitVec.ofNat 8 (m.pgn.toNat / 65536), m.dst, BitVec.ofNat 8 m.data.length] ++
      m.data := by
  rw [encodeHead, length_encodePayload, encodePayload, pgnBytes_eq, BitVec.ofNat_toNat 8 m.pri]
  rfl

theorem encodeFrame_of_le (p : Params) {m : Request} (h : m.data.length ≤ 223) :
    encodeFrame p m = .frame ([Config.esc, Config.stx] ++ encodeSpan p (encodeHead m) ++ [Config.esc, Config.etx]) :=
  if_neg (Nat.not_lt.2 h)

theorem encodeFrame_of_lt (p : Params) {m : Request} (h : 223 < m.data.length) :
    encodeFrame p m = .encodeError m.data.length :=
  if_pos h

end Sys2Proof.Machine

namespace Sys2Proof.Proofs

open Sys2Proof.Machine

/-- Settles O36: the markers stripped, the type byte passes DESTUFF and heads the decode input wherever the checksum holds. -/
theorem rxPipelineEmitsOneEvent : Obligations.RxPipelineEmitsOneEvent := by
  intro s t sp u d c ht hu hd
  subst hd
  rw [exec_rxPipeline, rxPipeline, spanOf_markers, ← hu]
  refine ⟨fun hv => ?_, fun hv r hr => ?_⟩
  · rw [frameEvent_of_not_verify hv]
    rfl
  · obtain ⟨d', rfl⟩ := decode_input_of_destuff ht hu.symm hv
    rw [frameEvent_of_verify hv, decodeByType_cons, ← hr]
    rfl

/-- Settles O37: the bytes given are `encodeHead m` and its checksum, and STUFF is the doubling byte by byte. -/
theorem encodeBuildsTheFrame : Obligations.EncodeBuildsTheFrame := by
  intro s m h c hh hc
  rw [← encodeHead_eq] at hh
  rw [← cksumCompute_eq] at hc
  subst hc hh
  refine ⟨fun hle => ?_, fun hlt => ?_⟩
  · rw [exec_encode, encodeFrame_of_le _ hle, encodeSpan, stuff_eq_flatMap]
    rfl
  · rw [exec_encode, encodeFrame_of_lt _ hlt]
    rfl

end Sys2Proof.Proofs
end

/-! ## 42_codec.md sections 1 and 2: the decoders and the messages they give -/

section
namespace Sys2Proof.Machine

theorem exec_decode93 (d : List Byte) (s : State) : exec (.decode93 d) s = .next (s.give (.decoded (decode93 d))) := rfl
theorem exec_decode94 (d : List Byte) (s : State) : exec (.decode94 d) s = .next (s.give (.decoded (decode94 d))) := rfl

theorem decode93_eq (d : List Byte) : decode93 d = decodeLayout 0x93#8 13 (byteAt d 7) d := rfl
theorem decode94_eq (d : List Byte) : decode94 d = decodeLayout 0x94#8 8 0x00#8 d := rfl

/-- The PGN's value is its bytes in base 256, low byte first (20_memory.md R41). -/
theorem toNat_pgnOf (q0 q1 q2 : Byte) : (pgnOf q0 q1 q2).toNat = q0.toNat + 256 * q1.toNat + 65536 * q2.toNat := by
  have hbytes := (pgnBytes_eq (pgnOf q0 q1 q2)).symm.trans (pgnBytes_of q0 q1 q2)
  generalize pgnOf q0 q1 q2 = g at hbytes ⊢
  have hg := g.isLt
  simp only [List.cons.injEq, ← BitVec.toNat_inj, BitVec.toNat_ofNat] at hbytes
  omega

/-! ### The checks both decoders make (R128, R129) -/

section
variable {t src n : Byte} {o : Nat} {d : List Byte}

theorem decodeLayout_of_short (h : d.length < o) : decodeLayout t o src d = .malformed t d.length o := if_pos h

theorem decodeLayout_of_bad_length (ho : o ≤ d.length) (hn : byteAt d (o - 1) = n)
    (h : 223 < n.toNat ∨ d.length < o + n.toNat) :
    decodeLayout t o src d = .malformed t d.length (o + n.toNat) := by
  rw [decodeLayout, if_neg (Nat.not_lt.2 ho), hn]
  rcases h with h | h
  · rw [if_pos h]
  · rw [if_pos h, ite_self]

theorem decodeLayout_of_complete (hn : byteAt d (o - 1) = n) (hcap : n.toNat ≤ 223) (h : o + n.toNat ≤ d.length) :
    decodeLayout t o src d = .msg (messageAt d o src) := by
  rw [decodeLayout, hn, if_neg (by omega), if_neg (Nat.not_lt.2 hcap), if_neg (by omega)]

theorem getElem?_eq_byteAt {i : Nat} (h : i < d.length) : d[i]? = some (byteAt d i) := by
  simp [byteAt, h]

/-- The message of a complete decode input has the fields of R64, read at their offsets, and the source the decoder gives it. -/
theorem decodeLayout_fields (ho : 8 ≤ o) (hn : byteAt d (o - 1) = n) (hcap : n.toNat ≤ 223) (h : o + n.toNat ≤ d.length) :
    ∃ m, decodeLayout t o src d = .msg m ∧ d[2]? = some m.pri ∧
      (∃ q0 q1 q2 : Byte, d[3]? = some q0 ∧ d[4]? = some q1 ∧ d[5]? = some q2 ∧
        m.pgn.toNat = q0.toNat + 256 * q1.toNat + 65536 * q2.toNat) ∧
      d[6]? = some m.dst ∧ m.src = src ∧ m.dlen = n ∧ m.data = (d.drop o).take n.toNat := by
  have hread : ∀ i < 8, d[i]? = some (byteAt d i) := fun i hi => getElem?_eq_byteAt (by omega)
  refine ⟨messageAt d o src, decodeLayout_of_complete hn hcap h, hread 2 (by decide),
    ⟨_, _, _, hread 3 (by decide), hread 4 (by decide), hread 5 (by decide), toNat_pgnOf _ _ _⟩,
    hread 6 (by decide), rfl, ?_⟩
  subst hn
  exact ⟨rfl, rfl⟩

theorem messageAt_valid (hcap : (byteAt d (o - 1)).toNat ≤ 223) (h : o + (byteAt d (o - 1)).toNat ≤ d.length) :
    (messageAt d o src).valid = true := by
  have hdata : (messageAt d o src).data.length = (byteAt d (o - 1)).toNat := by
    simp only [messageAt, List.length_take, List.length_drop]
    omega
  rw [Message.valid, hdata, decide_eq_true_eq]
  exact ⟨rfl, hcap⟩

end

/-- Everything a decoder can answer: a failure of its own type, or the message of a complete decode input. -/
theorem decodeLayout_cases (t : Byte) (o : Nat) (src : Byte) (d : List Byte) :
    (∃ need, decodeLayout t o src d = .malformed t d.length need) ∨
    (o + (byteAt d (o - 1)).toNat ≤ d.length ∧ (messageAt d o src).valid = true ∧
      decodeLayout t o src d = .msg (messageAt d o src)) := by
  by_cases hshort : d.length < o
  · exact .inl ⟨_, decodeLayout_of_short hshort⟩
  by_cases hbad : 223 < (byteAt d (o - 1)).toNat ∨ d.length < o + (byteAt d (o - 1)).toNat
  · exact .inl ⟨_, decodeLayout_of_bad_length (Nat.not_lt.1 hshort) rfl hbad⟩
  · obtain ⟨hcap, hlen⟩ := not_or.1 hbad
    rw [Nat.not_lt] at hcap hlen
    exact .inr ⟨hlen, messageAt_valid hcap hlen, decodeLayout_of_complete rfl hcap hlen⟩

theorem valid_of_decodeLayout {t src : Byte} {o : Nat} {d : List Byte} {m : Message}
    (h : decodeLayout t o src d = .msg m) : m.valid = true := by
  obtain ⟨need, hbad⟩ | ⟨-, hvalid, hmsg⟩ := decodeLayout_cases t o src d
  · rw [hbad] at h; cases h
  · rw [hmsg] at h
    obtain rfl := DecodeResult.msg.inj h
    exact hvalid

/-! ### The event of a frame is a checksum mismatch or a decoder's report (R125) -/

theorem frameEvent_cases (u : List Byte) :
    (∃ received computed, frameEvent u = .checksumMismatch received computed) ∨
    ∃ t o src d, isRecognized t = true ∧ frameEvent u = (decodeLayout t o src d).event := by
  cases hv : cksumVerify u with
  | false => exact .inl ⟨_, _, by rw [frameEvent, hv]; rfl⟩
  | true =>
    refine .inr ?_
    rw [frameEvent_of_verify hv, decodeByType]
    split
    · exact ⟨_, _, _, _, rfl, rfl⟩
    · exact ⟨_, _, _, _, rfl, rfl⟩

theorem frameEvent_fromPipeline (u : List Byte) : (frameEvent u).fromPipeline = true := by
  obtain ⟨_, _, h⟩ | ⟨t, o, src, d, -, h⟩ := frameEvent_cases u
  · rw [h]; rfl
  · rw [h]
    cases decodeLayout t o src d <;> rfl

theorem valid_of_frameEvent {u : List Byte} {m : Message} (h : frameEvent u = .msgDelivered m) : m.valid = true := by
  obtain ⟨_, _, h'⟩ | ⟨t, o, src, d, -, h'⟩ := frameEvent_cases u
  · rw [h'] at h; cases h
  · rw [h'] at h
    cases hd : decodeLayout t o src d with
    | malformed => rw [hd] at h; cases h
    | msg m' =>
      rw [hd] at h
      obtain rfl := Event.msgDelivered.inj h
      exact valid_of_decodeLayout hd

theorem frameEvent_legal (p : Params) (u : List Byte) : (frameEvent u).legal p = true := by
  obtain ⟨_, _, h⟩ | ⟨t, o, src, d, ht, h⟩ := frameEvent_cases u
  · rw [h]; rfl
  · rw [h]
    obtain ⟨need, hbad⟩ | ⟨-, hvalid, hmsg⟩ := decodeLayout_cases t o src d
    · rw [hbad]; exact ht
    · rw [hmsg]; exact hvalid

theorem message_valid_iff (m : Message) : m.valid = true ↔ m.dlen.toNat = m.data.length ∧ m.data.length ≤ 223 :=
  decide_eq_true_iff

end Sys2Proof.Machine

namespace Sys2Proof.Proofs

open Sys2Proof.Machine

/-- Settles O33: the branches of the decoders' checks with 13 bytes before Data. -/
theorem decodeInboundFrame : Obligations.DecodeInboundFrame := by
  intro s d
  rw [exec_decode93, decode93_eq]
  refine ⟨fun hshort => by rw [decodeLayout_of_short hshort]; rfl, fun n hn => ?_⟩
  have hlen : 13 ≤ d.length := (List.getElem?_eq_some_iff.1 hn).1
  refine ⟨fun hbad => by rw [decodeLayout_of_bad_length hlen (byteAt_of_getElem? hn) hbad]; rfl, fun hcap hle => ?_⟩
  obtain ⟨m, hm, hpri, hpgn, hdst, hsrc, hdata⟩ := decodeLayout_fields (by decide) (byteAt_of_getElem? hn) hcap hle
  refine ⟨m, by rw [hm]; rfl, hpri, hpgn, hdst, ?_, hdata⟩
  rw [hsrc]
  exact getElem?_eq_byteAt (by omega)

/-- Settles O34: the branches of the decoders' checks with 8 bytes before Data, and R133's source. -/
theorem decodeOutboundFrame : Obligations.DecodeOutboundFrame := by
  intro s d
  rw [exec_decode94, decode94_eq]
  refine ⟨fun hshort => by rw [decodeLayout_of_short hshort]; rfl, fun n hn => ?_⟩
  have hlen : 8 ≤ d.length := (List.getElem?_eq_some_iff.1 hn).1
  refine ⟨fun hbad => by rw [decodeLayout_of_bad_length hlen (byteAt_of_getElem? hn) hbad]; rfl, fun hcap hle => ?_⟩
  obtain ⟨m, hm, hfields⟩ := decodeLayout_fields le_rfl (byteAt_of_getElem? hn) hcap hle
  exact ⟨m, by rw [hm]; rfl, hfields⟩

/-- Settles O35: both decoders give a message only behind their checks, and RX_PIPELINE delivers a decoder's message. -/
theorem deliveredMessagesAreValid : Obligations.DeliveredMessagesAreValid := by
  intro s l m
  refine ⟨fun h => ?_, fun h => ?_, fun h => ?_⟩
  · rw [exec_decode93] at h
    have hret : decode93 l = .msg m := by simpa [State.give] using h
    exact (message_valid_iff m).1 (valid_of_decodeLayout hret)
  · rw [exec_decode94] at h
    have hret : decode94 l = .msg m := by simpa [State.give] using h
    exact (message_valid_iff m).1 (valid_of_decodeLayout hret)
  · rw [exec_rxPipeline] at h
    have hev : frameEvent (destuff (spanOf l)) = .msgDelivered m := by simpa [rxPipeline, State.emit] using h
    exact (message_valid_iff m).1 (valid_of_frameEvent hev)

end Sys2Proof.Proofs
end

/-! ## 40_synchronizer.md section 2: everything one pass of DRAIN can do -/

section
namespace Sys2Proof.Machine

/-- The six ways a pass ends, each with what decides it (R81). -/
inductive PassOutcome (s : State) : Pass → Prop where
  | noMarker (h : NoPair s.buf Config.esc Config.stx 0) : PassOutcome s (.stop ((noMarker s).setFsm .searching))
  | header {k : Nat} (hfirst : FirstPair s.buf Config.esc Config.stx 0 k) (hlen : s.buf.length ≤ k + 3) :
    PassOutcome s (.stop { s with buf := s.buf.drop k, st := .headerPending })
  | unrecognized {k : Nat} (hfirst : FirstPair s.buf Config.esc Config.stx 0 k) (hlen : k + 3 < s.buf.length)
    (ht : isRecognized (byteAt s.buf (k + 2)) = false) :
    PassOutcome s (.again { s with
      buf := s.buf.drop (k + 1)
      events := s.events ++ [.unrecognizedType (byteAt s.buf (k + 2))] })
  | wait {k : Nat} (hfirst : FirstPair s.buf Config.esc Config.stx 0 k) (hlen : k + 3 < s.buf.length)
    (ht : isRecognized (byteAt s.buf (k + 2)) = true) (hend : endScan s.params s.buf k = .wait) :
    PassOutcome s (.stop { s with buf := s.buf.drop k, st := .payloadPending })
  | abort {k p : Nat} (hfirst : FirstPair s.buf Config.esc Config.stx 0 k) (hlen : k + 3 < s.buf.length)
    (ht : isRecognized (byteAt s.buf (k + 2)) = true) (hend : endScan s.params s.buf k = .abort p) :
    PassOutcome s (.again { s with buf := s.buf.drop p, events := s.events ++ [.frameAbort (p - k)] })
  | found {k e : Nat} (hfirst : FirstPair s.buf Config.esc Config.stx 0 k) (hlen : k + 3 < s.buf.length)
    (ht : isRecognized (byteAt s.buf (k + 2)) = true) (hend : endScan s.params s.buf k = .found e) :
    PassOutcome s (.again { s with
      buf := s.buf.drop (e + 2)
      events := s.events ++ [frameEvent (destuff (spanOf (slice s.buf k (e + 1))))] })

theorem drainPass_outcome (s : State) : PassOutcome s (drainPass s) := by
  cases hscan : startScan s.buf with
  | none =>
    have hno := startScan_eq_none.1 hscan
    rw [drainPass_of_noPair hno]
    exact .noMarker hno
  | some k =>
    have hfirst := startScan_eq_some.1 hscan
    by_cases hlen : s.buf.length ≤ k + 3
    · rw [drainPass_of_short hfirst hlen]
      exact .header hfirst hlen
    rw [Nat.not_le] at hlen
    cases ht : isRecognized (byteAt s.buf (k + 2)) with
    | false =>
      rw [drainPass_of_unrecognized hfirst hlen ht]
      exact .unrecognized hfirst hlen ht
    | true =>
      obtain ⟨hwait, habort, hfound⟩ := drainPass_of_recognized hfirst hlen ht
      cases hend : endScan s.params s.buf k with
      | wait => rw [hwait hend]; exact .wait hfirst hlen ht hend
      | abort p => rw [habort p hend]; exact .abort hfirst hlen ht hend
      | found e => rw [hfound e hend]; exact .found hfirst hlen ht hend

theorem passOutcome_of_eq {s : State} {r : Pass} (h : drainPass s = r) : PassOutcome s r := h ▸ drainPass_outcome s

end Sys2Proof.Machine
end

/-! ## 20_memory.md section 3: what an instruction, and a step, can do -/

section
namespace Sys2Proof.Machine

/-! ### The six effects of the instructions -/

/-- What an instruction does to a state. The wire tokens are FEEDs of their bytes, and the pure operations hand back a value that the
parameters and the buffer determine. -/
inductive Effect where
  | feed (chunk : List Byte)
  | drain
  | pipeline (f : List Byte)
  | give (r : Params → List Byte → Returned)
  | write (w : List Byte)
  | send (m : Request)

def Effect.run : Effect → State → State
  | .feed c, s => Machine.feed c s
  | .drain, s => Machine.drain s
  | .pipeline f, s => rxPipeline f s
  | .give r, s => s.give (r s.params s.buf)
  | .write w, s => (s.transportWrite w).give (.written (writeResult (s.nextCount w) w))
  | .send m, s => txSend m s

/-- The effect of each row of the operation table. -/
def effectOf : Instr → Effect
  | .feed c => .feed c
  | .txSend m => .send m
  | .drain => .drain
  | .startScan => .give fun _ b => .index (startScan b)
  | .endScanNaive k => .give fun _ b => .scan (endScanNaive b k)
  | .endScanAware k => .give fun _ b => .scan (endScanAware b k)
  | .rxPipeline f => .pipeline f
  | .destuff sp => .give fun _ _ => .bytes (destuff sp)
  | .cksumVerify u => .give fun _ _ => .flag (cksumVerify u)
  | .decode93 d => .give fun _ _ => .decoded (decode93 d)
  | .decode94 d => .give fun _ _ => .decoded (decode94 d)
  | .encode m => .give fun p _ => .encoded (encodeFrame p m)
  | .cksumCompute x => .give fun _ _ => .byte (cksumCompute x)
  | .stuff x => .give fun _ _ => .bytes (stuff x)
  | .escCksum c => .give fun _ _ => .bytes (escCksum c)
  | .txWrite w => .write w
  | .startMark => .feed [Config.esc, Config.stx]
  | .endMark => .feed [Config.esc, Config.etx]
  | .escEsc => .feed [Config.esc, Config.esc]
  | .typeIn len => .feed [Config.typeIn, len]
  | .typeOut len => .feed [Config.typeOut, len]
  | .unrecognizedType t len => .feed [Config.esc, Config.stx, t, len]
  | .strayEsc x => .feed [Config.esc, x]

/-- Every instruction completes, with its effect. -/
theorem exec_eq_run (i : Instr) (s : State) : exec i s = .next ((effectOf i).run s) := by
  cases i <;> rfl

/-- An effect that reads and writes B and E: the RX agent's alone. -/
def Effect.receives : Effect → Bool
  | .feed _ | .drain | .pipeline _ => true
  | .give _ | .write _ | .send _ => false

/-- An effect on the transport or the lock: the TX agent's alone. -/
def Effect.transmits : Effect → Bool
  | .write _ | .send _ => true
  | .feed _ | .drain | .pipeline _ | .give _ => false

theorem effectOf_not_transmits {i : Instr} (h : i.owner = .rx) : (effectOf i).transmits = false := by
  cases i <;> simp_all [Instr.owner, effectOf, Effect.transmits]

theorem effectOf_not_receives {i : Instr} (h : i.owner ≠ .rx) : (effectOf i).receives = false := by
  cases i <;> simp_all [Instr.owner, effectOf, Effect.receives]

/-! ### What an effect leaves unchanged (R47, R171) -/

theorem feed_params (c : List Byte) (s : State) : (feed c s).params = s.params := by rw [feed_frame]

@[simp] theorem txSend_port (m : Request) (s : State) : (txSend m s).port = s.port := by
  unfold txSend encodeAndWrite
  split
  · rfl
  · split <;> rfl

/-- TX_SEND leaves the lock as it found it: held, when it awaits, and free, when it has released it (R139). -/
@[simp] theorem txSend_txBusy (m : Request) (s : State) : (txSend m s).txBusy = s.txBusy := by
  unfold txSend
  split
  · rfl
  · next h => exact (Bool.eq_false_iff.2 h).symm

/-- What no effect changes: the parameters, the port and, at its end, the lock. -/
theorem Effect.run_keeps (f : Effect) (s : State) :
    (f.run s).params = s.params ∧ (f.run s).port = s.port ∧ (f.run s).txBusy = s.txBusy := by
  cases f with
  | feed c => rw [run, feed_frame]; exact ⟨rfl, rfl, rfl⟩
  | drain => rw [run, drain_frame]; exact ⟨rfl, rfl, rfl⟩
  | pipeline f => exact ⟨rfl, rfl, rfl⟩
  | give r => exact ⟨rfl, rfl, rfl⟩
  | write w => exact ⟨rfl, rfl, rfl⟩
  | send m => exact ⟨(txSend_frame m s).1, txSend_port m s, txSend_txBusy m s⟩

/-- An effect that does not receive leaves B, st and E. -/
theorem Effect.run_of_not_receives {f : Effect} (h : f.receives = false) (s : State) :
    (f.run s).buf = s.buf ∧ (f.run s).st = s.st ∧ (f.run s).events = s.events := by
  cases f with
  | feed | drain | pipeline => cases h
  | give r => exact ⟨rfl, rfl, rfl⟩
  | write w => exact ⟨rfl, rfl, rfl⟩
  | send m =>
    obtain ⟨-, hbuf, hst, hevents, -⟩ := txSend_frame m s
    exact ⟨hbuf, hst, hevents⟩

/-- An effect that does not transmit reads the parameters, B, st and the handed value only, changes B, st and the handed value, and appends
to E: it does the same to any two states that agree on what it reads. -/
theorem Effect.run_congr {f : Effect} (h : f.transmits = false) {s t : State} (hparams : s.params = t.params)
    (hbuf : s.buf = t.buf) (hst : s.st = t.st) (hret : s.ret = t.ret) :
    ∃ b v new r, f.run s = { s with buf := b, st := v, events := s.events ++ new, ret := r } ∧
      f.run t = { t with buf := b, st := v, events := t.events ++ new, ret := r } := by
  cases f with
  | write | send => cases h
  | feed c =>
    obtain ⟨new, b, v, hs, ht⟩ := feed_congr c s t hparams hbuf
    exact ⟨b, v, new, s.ret, hs, by rw [hret]; exact ht⟩
  | drain =>
    obtain ⟨new, b, v, hs, ht⟩ := drain_congr s t hparams hbuf
    exact ⟨b, v, new, s.ret, hs, by rw [hret]; exact ht⟩
  | pipeline f =>
    refine ⟨s.buf, s.st, [frameEvent (destuff (spanOf f))], s.ret, rfl, ?_⟩
    rw [hbuf, hst, hret]
    rfl
  | give r =>
    refine ⟨s.buf, s.st, [], r s.params s.buf, ?_, ?_⟩
    · rw [List.append_nil]; rfl
    · rw [hparams, hbuf, hst, List.append_nil]; rfl

/-- Every effect only appends to E, the same whatever E holds (R30, R49). -/
theorem Effect.run_events (f : Effect) (s : State) :
    ∃ new, ∀ old, (f.run { s with events := old }).events = old ++ new := by
  cases h : f.transmits with
  | true =>
    have hr : f.receives = false := by cases f <;> simp_all [transmits, receives]
    exact ⟨[], fun old => by rw [(run_of_not_receives hr _).2.2, List.append_nil]⟩
  | false =>
    refine ⟨(f.run { s with events := [] }).events, fun old => ?_⟩
    obtain ⟨b, v, new, r, h0, h1⟩ :=
      run_congr h (s := { s with events := [] }) (t := { s with events := old }) rfl rfl rfl rfl
    rw [h0, h1]
    rfl

/-! ### What a step can do (70_reset_and_hazards.md R185 to R188) -/

/-- A step that answers a next state waits, resets, closes the transport, or runs one instruction's effect with the input taken. -/
theorem step_cases {s t : State} (h : step s = .next t) :
    t = s ∨ (∃ rest, t = { s.restart with inbox := rest }) ∨ (∃ rest, t = { s with port := .closed, inbox := rest }) ∨
    ∃ f rest, t = Effect.run f { s with inbox := rest } := by
  unfold step runInput at h
  split at h
  · cases h
  · exact .inl (Host.Outcome.next.inj h).symm
  · unfold runOpen at h
    split at h
    · exact .inl (Host.Outcome.next.inj h).symm
    · exact .inr (.inl ⟨_, (Host.Outcome.next.inj h).symm⟩)
    · exact .inr (.inr (.inl ⟨_, (Host.Outcome.next.inj h).symm⟩))
    · unfold runTransfer at h
      split at h
      · split at h
        · rw [exec_eq_run] at h
          exact .inr (.inr (.inr ⟨_, _, (Host.Outcome.next.inj h).symm⟩))
        · cases h
      · cases h
      · cases h

/-! ### The invariants of a step -/

theorem settled_iff (s : State) :
    s.settled = true ↔ bufferShape s.params s.buf s.st = true ∧ fits s.params s.buf.length = true := Bool.and_eq_true_iff

theorem fits_zero (p : Params) : fits p 0 = true := fits_eq_true.2 fun _ _ => Nat.zero_le _

theorem settled_of_empty {s : State} (hbuf : s.buf = []) (hst : s.st = .searching) : s.settled = true := by
  rw [settled_iff, hbuf, hst]
  exact ⟨(bufferShape_searching _ _).2 (.inl rfl), fits_zero _⟩

theorem settled_congr {s t : State} (hparams : t.params = s.params) (hbuf : t.buf = s.buf) (hst : t.st = s.st) :
    t.settled = s.settled := by
  rw [State.settled, State.settled, hparams, hbuf, hst]

theorem overflowCheck_cases (s : State) :
    (fits s.params s.buf.length = true ∧ overflowCheck s = s) ∨
    (fits s.params s.buf.length = false ∧ overflowCheck s =
      { s with buf := [], st := .searching, events := s.events ++ [.bufferOverflow s.buf.length] }) := by
  cases h : fits s.params s.buf.length with
  | true => exact .inl ⟨rfl, overflowCheck_of_fits h⟩
  | false =>
    rw [← Bool.not_eq_true, fits_eq_true] at h
    push Not at h
    obtain ⟨c, hc, hlt⟩ := h
    exact .inr ⟨rfl, overflowCheck_of_lt hc hlt⟩

theorem length_of_take_two {b : List Byte} {x y : Byte} (h : b.take 2 = [x, y]) : 2 ≤ b.length := by
  have := congrArg List.length h
  simp at this
  omega

/-- The number of bytes in the buffer gives the FSM state (R23). -/
theorem fsm_of_bufferShape {p : Params} {b : List Byte} {v : Fsm} (h : bufferShape p b v = true) :
    v = if b.length ≤ 1 then .searching else if b.length ≤ 3 then .headerPending else .payloadPending := by
  cases v with
  | searching => obtain rfl | ⟨-, rfl⟩ := (bufferShape_searching p b).1 h <;> rfl
  | headerPending =>
    obtain ⟨hmark, hle⟩ := (bufferShape_headerPending p b).1 h
    have := length_of_take_two hmark
    rw [if_neg (by omega), if_pos hle]
  | payloadPending =>
    obtain ⟨-, hlen, -⟩ := (bufferShape_payloadPending p b).1 h
    rw [if_neg (by omega), if_neg (by omega)]

theorem bufferShape_inj {p : Params} {b : List Byte} {v w : Fsm} (hv : bufferShape p b v = true)
    (hw : bufferShape p b w = true) : v = w := (fsm_of_bufferShape hv).trans (fsm_of_bufferShape hw).symm

/-- FEED leaves a settled buffer, from any state (R23, R90). -/
theorem feed_settled (c : List Byte) (s : State) : (feed c s).settled = true := by
  have hshape := drain_bufferShape (s.bufAppend c)
  rw [← drain_params] at hshape
  rw [feed]
  obtain ⟨hfits, h⟩ | ⟨-, h⟩ := overflowCheck_cases (drain (s.bufAppend c))
  · rw [h, settled_iff]
    exact ⟨hshape, hfits⟩
  · rw [h]
    exact settled_of_empty rfl rfl

theorem Effect.run_settled (f : Effect) {s : State} (h : s.settled = true) : (f.run s).settled = true := by
  cases hr : f.receives with
  | false =>
    obtain ⟨hbuf, hst, -⟩ := run_of_not_receives hr s
    rwa [settled_congr (run_keeps f s).1 hbuf hst]
  | true =>
    cases f with
    | feed c => exact feed_settled c s
    | drain => rwa [run, drain_of_bufferShape ((settled_iff s).1 h).1]
    | pipeline f => exact h
    | give | write | send => cases hr

/-- Every event a state holds is one its block can emit (R161). -/
def State.eventsLegal (s : State) : Bool := s.events.all (Event.legal s.params)

theorem eventsLegal_append {s t : State} {new : List Event} (hs : s.eventsLegal = true) (hparams : t.params = s.params)
    (hevents : t.events = s.events ++ new) (hnew : ∀ e ∈ new, e.legal s.params = true) : t.eventsLegal = true := by
  rw [State.eventsLegal, hparams, hevents, List.all_append, Bool.and_eq_true_iff, List.all_eq_true (l := new)]
  exact ⟨hs, hnew⟩

/-- One pass appends legal events and leaves the parameters. -/
theorem drainPass_events {s t : State} (h : drainPass s = .stop t ∨ drainPass s = .again t) :
    t.params = s.params ∧ ∃ new, t.events = s.events ++ new ∧ ∀ e ∈ new, e.legal s.params = true := by
  have hcase : PassOutcome s (.stop t) ∨ PassOutcome s (.again t) := h.imp (passOutcome_of_eq ·) (passOutcome_of_eq ·)
  rcases hcase with hcase | hcase
  · cases hcase with
    | noMarker _ =>
      rw [noMarker_eq]
      refine ⟨rfl, _, rfl, fun e he => ?_⟩
      split at he
      · next hlt =>
        obtain rfl := List.mem_singleton.1 he
        exact decide_eq_true (by omega)
      · cases he
    | header | wait => exact ⟨rfl, [], by simp, by simp⟩
  · cases hcase with
    | unrecognized _ _ ht => exact ⟨rfl, _, rfl, by simp [Event.legal, ht]⟩
    | abort _ _ _ hend =>
      obtain ⟨haware, hge, -⟩ := endScan_abort hend
      exact ⟨rfl, _, rfl, by simp [Event.legal, haware]; omega⟩
    | found => exact ⟨rfl, _, rfl, by simp [frameEvent_legal]⟩

theorem drain_eventsLegal {s : State} (h : s.eventsLegal = true) : (drain s).eventsLegal = true := by
  induction s using drain_induction with
  | stop s t hp =>
    obtain ⟨hparams, new, hevents, hnew⟩ := drainPass_events (.inl hp)
    rw [drain_of_stop hp]
    exact eventsLegal_append h hparams hevents hnew
  | again s t hp ih =>
    obtain ⟨hparams, new, hevents, hnew⟩ := drainPass_events (.inr hp)
    rw [drain_of_again hp]
    exact ih (eventsLegal_append h hparams hevents hnew)

theorem feed_eventsLegal (c : List Byte) {s : State} (h : s.eventsLegal = true) : (feed c s).eventsLegal = true := by
  have hdrain : (drain (s.bufAppend c)).eventsLegal = true := drain_eventsLegal h
  rw [feed]
  obtain ⟨-, heq⟩ | ⟨hfits, heq⟩ := overflowCheck_cases (drain (s.bufAppend c))
  · rwa [heq]
  · rw [heq]
    exact eventsLegal_append hdrain rfl rfl (by simp [Event.legal, hfits])

theorem Effect.run_eventsLegal (f : Effect) {s : State} (h : s.eventsLegal = true) : (f.run s).eventsLegal = true := by
  cases hr : f.receives with
  | false =>
    exact eventsLegal_append h (run_keeps f s).1 (by rw [(run_of_not_receives hr s).2.2, List.append_nil]) (by simp)
  | true =>
    cases f with
    | feed c => exact feed_eventsLegal c h
    | drain => exact drain_eventsLegal h
    | pipeline f => exact eventsLegal_append h rfl rfl (by simp [frameEvent_legal])
    | give | write | send => cases hr

end Sys2Proof.Machine

namespace Sys2Proof.Proofs

open Sys2Proof.Machine

/-- Settles O49: FEED leaves a settled buffer from any state, and everything else leaves a settled buffer alone or empties it. -/
theorem stepKeepsTheBufferSettled : Obligations.StepKeepsTheBufferSettled := by
  intro s t hs h
  obtain rfl | ⟨rest, rfl⟩ | ⟨rest, rfl⟩ | ⟨f, rest, rfl⟩ := step_cases h
  · exact hs
  · exact settled_of_empty rfl rfl
  · exact hs
  · exact f.run_settled hs

/-- Settles O50: each pass of DRAIN, the check of the bound and RX_PIPELINE append legal events only. -/
theorem stepKeepsEventsLegal : Obligations.StepKeepsEventsLegal := by
  intro s t hs h
  obtain rfl | ⟨rest, rfl⟩ | ⟨rest, rfl⟩ | ⟨f, rest, rfl⟩ := step_cases h
  · exact hs
  · rfl
  · exact hs
  · exact f.run_eventsLegal hs

/-- Settles O48: no effect changes a parameter or the lock, and RESET frees it. -/
theorem stepKeepsParametersAndLock : Obligations.StepKeepsParametersAndLock := by
  intro s t h
  obtain rfl | ⟨rest, rfl⟩ | ⟨rest, rfl⟩ | ⟨f, rest, rfl⟩ := step_cases h
  · exact ⟨rfl, id⟩
  · exact ⟨rfl, fun _ => rfl⟩
  · exact ⟨rfl, id⟩
  · obtain ⟨hparams, -, hbusy⟩ := f.run_keeps { s with inbox := rest }
    exact ⟨hparams, fun h => hbusy.trans h⟩

/-- Settles O46: TX_SEND leaves all an RX instruction reads, and does not read what one changes. -/
theorem agentsCommute : Obligations.AgentsCommute := by
  intro i m s hi
  obtain ⟨hparams, hbuf, hst, hevents, hret⟩ := txSend_frame m s
  obtain ⟨b, v, new, r, hs, ht⟩ := Effect.run_congr (effectOf_not_transmits hi) hparams.symm hbuf.symm hst.symm hret.symm
  refine ⟨_, _, _, exec_eq_run i s, rfl, rfl, ?_⟩
  rw [exec_eq_run, hs, ht, hevents]
  exact congrArg _ (txSend_with_rx m s b v (s.events ++ new) r).symm

/-- Settles O42: what does not transmit changes B, st, E and the handed value only. -/
theorem rxLeavesTheTransmitSide : Obligations.RxLeavesTheTransmitSide := by
  intro i s hi
  obtain ⟨b, v, new, r, hs, -⟩ := Effect.run_congr (effectOf_not_transmits hi) (s := s) rfl rfl rfl rfl
  exact ⟨_, exec_eq_run i s, by rw [hs]⟩

/-- Settles O43: what does not receive leaves B, st and E, and a TX_SEND that took the lock has released it. -/
theorem txLeavesTheReceiveSide : Obligations.TxLeavesTheReceiveSide := by
  intro i s hi
  obtain ⟨hbuf, hst, hevents⟩ := Effect.run_of_not_receives (effectOf_not_receives hi) s
  obtain ⟨hparams, hport, hbusy⟩ := (effectOf i).run_keeps s
  exact ⟨_, exec_eq_run i s, hbuf, hst, hevents, hparams, hport, hbusy⟩

/-- Settles O47: what receives reads the parameters and the buffer and not E, and nothing else appends to E. -/
theorem eventsOnlyGrow : Obligations.EventsOnlyGrow := by
  intro i s
  obtain ⟨new, hnew⟩ := (effectOf i).run_events s
  exact ⟨new, fun old => ⟨_, exec_eq_run i _, hnew old⟩⟩

/-- Settles O45: DRAIN and FEED have their frame, the wire tokens are FEEDs, and RX_PIPELINE emits its frame's event. -/
theorem receiveFrame : Obligations.ReceiveFrame := by
  refine ⟨fun i s _ hi => ?_, fun f s => ⟨_, frameEvent_fromPipeline (destuff (spanOf f)), exec_rxPipeline f s⟩⟩
  have heffect : effectOf i = .drain ∨ ∃ c, effectOf i = .feed c := by
    rcases hi with rfl | ⟨c, rfl⟩ | rfl | rfl | rfl | ⟨l, rfl | rfl⟩ | ⟨t, l, rfl⟩ | ⟨x, rfl⟩ <;> simp [effectOf]
  rw [exec_eq_run]
  obtain h | ⟨c, h⟩ := heffect
  · exact ⟨drain s, by rw [h]; rfl, drain_frame s⟩
  · exact ⟨feed c s, by rw [h]; rfl, feed_frame c s⟩

/-- Settles O44: the handed value is a function of the operand, the parameters and the buffer, which stay. -/
theorem pureOperationsOnlyReturnAValue : Obligations.PureOperationsOnlyReturnAValue := by
  intro i s hi
  have heffect : ∃ r, effectOf i = .give r := by
    rcases hi with rfl | ⟨k, rfl | rfl⟩ | ⟨l, rfl | rfl | rfl | rfl | rfl | rfl⟩ | ⟨m, rfl⟩ | ⟨c, rfl⟩ <;> exact ⟨_, rfl⟩
  obtain ⟨r, h⟩ := heffect
  exact ⟨r s.params s.buf, by rw [exec_eq_run, h]; rfl, by rw [exec_eq_run, h]; rfl⟩

/-- Settles O59: a token's effect is FEED of its bytes. -/
theorem wireTokensAreFeedsOfTheirBytes : Obligations.WireTokensAreFeedsOfTheirBytes := fun _ =>
  ⟨rfl, rfl, rfl, fun _ => ⟨rfl, rfl⟩, fun _ _ => rfl, fun _ => rfl⟩

/-- Settles O2: the reset buffer is empty, the FSM searching, the lock free and E empty. -/
theorem resetIsSafe : Obligations.ResetIsSafe := by
  refine ⟨rfl, fun p => ?_⟩
  rw [State.safe, settled_of_empty (State.resetWith_buf p) (State.resetWith_st p)]
  rfl

/-- Settles O21: a settled buffer is one of R23's cases, which differ in their length. -/
theorem feedLeavesAKnownBuffer : Obligations.FeedLeavesAKnownBuffer := by
  refine ⟨fun s c => ⟨feed c s, exec_feed c s, feed_params c s, ?_⟩, fun p b v w => bufferShape_inj⟩
  have hshape := ((settled_iff _).1 (feed_settled c s)).1
  rw [feed_params] at hshape
  cases hst : (feed c s).st with
  | searching =>
    rw [hst, bufferShape_searching] at hshape
    exact .inl ⟨rfl, hshape⟩
  | headerPending =>
    rw [hst, bufferShape_headerPending] at hshape
    exact .inr (.inl ⟨rfl, hshape⟩)
  | payloadPending =>
    rw [hst, bufferShape_payloadPending] at hshape
    obtain ⟨hmark, hlen, ht, hwait⟩ := hshape
    have htype : (feed c s).buf[2]? = some (byteAt (feed c s).buf 2) := getElem?_eq_byteAt (by omega)
    refine .inr (.inr ⟨rfl, hmark, hlen, ?_, hwait⟩)
    rw [htype]
    obtain h | h := isRecognized_eq_true.1 ht
    · exact .inl (by rw [h])
    · exact .inr (by rw [h])

end Sys2Proof.Proofs
end

/-! ## 30_encoding.md and 70_reset_and_hazards.md: transfers, and the step that runs one -/

section
namespace Sys2Proof

/-! ### The decoder reads only what the encoder writes (log entry 1) -/

/-- Without a zero high byte, an index's bytes are those the encoder writes, whatever its fuel. -/
theorem indexBytes_indexOf (ops : List Byte) (h : ops.getLast? ≠ some 0#8) :
    (ops ≠ [] → indexOf ops ≠ 0) ∧ ∀ f, indexOf ops ≤ f → indexBytes f (indexOf ops) = ops := by
  induction ops with
  | nil => exact ⟨fun h => absurd rfl h, fun f _ => by cases f <;> simp [indexBytes, indexOf]⟩
  | cons b bs ih =>
    have hb := b.isLt
    have hbs : bs.getLast? ≠ some 0#8 := by
      cases bs with
      | nil => simp
      | cons c bs => simpa using h
    obtain ⟨hne, hbytes⟩ := ih hbs
    have hpos : indexOf (b :: bs) ≠ 0 := by
      cases bs with
      | nil =>
        have hb0 : b ≠ 0#8 := by simpa using h
        have : b.toNat ≠ 0 := fun h0 => hb0 (BitVec.eq_of_toNat_eq h0)
        simpa [indexOf] using this
      | cons c bs =>
        have := hne (by simp)
        simp only [indexOf] at this ⊢
        omega
    refine ⟨fun _ => hpos, fun f hf => ?_⟩
    cases f with
    | zero => omega
    | succ f =>
      have hdiv : (b.toNat + 256 * indexOf bs) / 256 = indexOf bs := by omega
      have hbyte : BitVec.ofNat 8 (b.toNat + 256 * indexOf bs) = b := by
        apply BitVec.eq_of_toNat_eq
        rw [BitVec.toNat_ofNat]
        omega
      rw [indexBytes, if_neg hpos, indexOf, hdiv, hbyte, hbytes f (by simp only [indexOf] at hpos hf; omega)]

theorem decodeIndex_ok {ops : List Byte} {n : Nat} (h : decodeIndex ops = .ok n) : indexBytes n n = ops := by
  unfold decodeIndex at h
  split at h
  · cases h
  · next hlast =>
    obtain rfl := Except.ok.inj h
    exact (indexBytes_indexOf ops hlast).2 _ le_rfl

theorem decodeRequest_ok {c : Byte} {ops : List Byte} {m : Request} (h : decodeRequest c ops = .ok m) :
    requestBytes m = ops := by
  unfold decodeRequest at h
  split at h
  · next b q0 q1 q2 dst src data =>
    split at h
    · next hb =>
      obtain rfl := Except.ok.inj h
      have hpri : (b.setWidth 3).setWidth 8 = b := by
        apply BitVec.eq_of_toNat_eq
        simp only [BitVec.toNat_setWidth]
        omega
      simp only [requestBytes, pgnBytes_of, hpri, List.cons_append, List.nil_append]
    · cases h
  · cases h

theorem decodeNone_ok {c : Byte} {i j : Instr} {ops : List Byte} (h : decodeNone c i ops = .ok j) : ops = [] ∧ j = i := by
  unfold decodeNone at h
  split at h
  · exact ⟨rfl, (Except.ok.inj h).symm⟩
  · cases h

theorem decodeOne_ok {c : Byte} {f : Byte → Instr} {j : Instr} {ops : List Byte} (h : decodeOne c f ops = .ok j) :
    ∃ b, ops = [b] ∧ j = f b := by
  unfold decodeOne at h
  split at h
  · exact ⟨_, rfl, (Except.ok.inj h).symm⟩
  · cases h

theorem map_eq_ok {α : Type} {x : Except DecodeError α} {f : α → Instr} {j : Instr} (h : x.map f = .ok j) :
    ∃ a, x = .ok a ∧ j = f a := by
  cases x with
  | error e => cases h
  | ok a => exact ⟨a, rfl, (Except.ok.inj h).symm⟩

/-- The transfers that begin with ESC are DRAIN's and the tokens' (R56, R68, R69). -/
theorem decodeEsc_ok {ops : List Byte} {i : Instr} (h : decodeEsc ops = .ok i) :
    encode i = 0x10#8 :: ops ∧ i.wellFormed = true := by
  unfold decodeEsc at h
  split at h
  · obtain rfl := Except.ok.inj h
    exact ⟨rfl, rfl⟩
  · next x =>
    split at h
    · next hx => obtain rfl := Except.ok.inj h; exact ⟨by rw [hx]; rfl, rfl⟩
    · next hstx =>
      split at h
      · next hx => obtain rfl := Except.ok.inj h; exact ⟨by rw [hx]; rfl, rfl⟩
      · next hetx =>
        split at h
        · next hx => obtain rfl := Except.ok.inj h; exact ⟨by rw [hx]; rfl, rfl⟩
        · next hesc =>
          obtain rfl := Except.ok.inj h
          exact ⟨rfl, by simp [Instr.wellFormed, hstx, hetx, hesc]⟩
  · next y t len =>
    split at h
    · next hy =>
      obtain ⟨rfl, ht⟩ := hy
      obtain rfl := Except.ok.inj h
      exact ⟨rfl, by simp [Instr.wellFormed, ht]⟩
    · cases h
  · cases h

theorem eq_ofNat_of_toNat {c : Byte} {n : Nat} (h : c.toNat = n) : c = BitVec.ofNat 8 n := by
  rw [← h, BitVec.ofNat_toNat, BitVec.setWidth_eq]

/-- Each code's operands read back, and the instruction meets the table's two restrictions (R74). -/
theorem decodeBody_ok {c : Byte} {ops : List Byte} {i : Instr} (h : decodeBody c ops = .ok i) :
    encode i = c :: ops ∧ i.wellFormed = true := by
  unfold decodeBody at h
  split at h
  -- the codes whose operand is the rest of the transfer
  case h_1 hc | h_7 hc | h_8 hc | h_9 hc | h_10 hc | h_11 hc | h_13 hc | h_14 hc | h_16 hc =>
    obtain rfl := eq_ofNat_of_toNat hc
    obtain rfl := Except.ok.inj h
    exact ⟨rfl, rfl⟩
  -- TX_SEND and ENCODE
  case h_2 hc | h_12 hc =>
    obtain rfl := eq_ofNat_of_toNat hc
    obtain ⟨m, hm, rfl⟩ := map_eq_ok h
    exact ⟨congrArg (_ :: ·) (decodeRequest_ok hm), rfl⟩
  -- DRAIN and the tokens
  case h_3 hc =>
    obtain rfl := eq_ofNat_of_toNat hc
    exact decodeEsc_ok h
  -- START_SCAN
  case h_4 hc =>
    obtain rfl := eq_ofNat_of_toNat hc
    obtain ⟨rfl, rfl⟩ := decodeNone_ok h
    exact ⟨rfl, rfl⟩
  -- the end scans
  case h_5 hc | h_6 hc =>
    obtain rfl := eq_ofNat_of_toNat hc
    obtain ⟨n, hn, rfl⟩ := map_eq_ok h
    exact ⟨congrArg (_ :: ·) (decodeIndex_ok hn), rfl⟩
  -- ESC_CKSUM and the type bytes
  case h_15 hc | h_17 hc | h_18 hc =>
    obtain rfl := eq_ofNat_of_toNat hc
    obtain ⟨b, rfl, rfl⟩ := decodeOne_ok h
    exact ⟨rfl, rfl⟩
  case h_19 => cases h

theorem decode_unassigned {c : Byte} {ops : List Byte}
    (h : c.toNat ∉ [0x01, 0x02, 0x10, 0x11, 0x12, 0x13, 0x14, 0x15, 0x16, 0x17, 0x18, 0x20, 0x21, 0x22, 0x23, 0x24, 0x93, 0x94]) :
    decode (c :: ops) = .error (.unassignedCode c) := by
  show decodeBody c ops = _
  unfold decodeBody
  split
  case h_19 => rfl
  all_goals next hc => exact absurd (hc ▸ h) (by decide)

end Sys2Proof

namespace Sys2Proof.Machine

/-! ### The step's branches (R185 to R188) -/

theorem step_of_opened {s : State} (h : s.port = .opened) : step s = runOpen s := by simp only [step, runInput, h]

theorem step_transfer {s : State} {bytes : List Byte} {rest : List HostInput} (hport : s.port = .opened)
    (hinbox : s.inbox = .transfer bytes :: rest) : step s = runTransfer bytes { s with inbox := rest } := by
  rw [step_of_opened hport, runOpen, hinbox]

end Sys2Proof.Machine

namespace Sys2Proof.Proofs

open Sys2Proof.Machine

/-- Settles O7: one lemma for each instruction's transfer (Laws/PerInstr.lean). -/
theorem decodeInvertsEncode : Obligations.DecodeInvertsEncode
  | .feed c => Laws.RoundTrip.feed c
  | .txSend m => Laws.RoundTrip.txSend m
  | .drain => Laws.RoundTrip.drain
  | .startScan => Laws.RoundTrip.startScan
  | .endScanNaive k => Laws.RoundTrip.endScanNaive k
  | .endScanAware k => Laws.RoundTrip.endScanAware k
  | .rxPipeline f => Laws.RoundTrip.rxPipeline f
  | .destuff l => Laws.RoundTrip.destuff l
  | .cksumVerify u => Laws.RoundTrip.cksumVerify u
  | .decode93 d => Laws.RoundTrip.decode93 d
  | .decode94 d => Laws.RoundTrip.decode94 d
  | .encode m => Laws.RoundTrip.encode m
  | .cksumCompute x => Laws.RoundTrip.cksumCompute x
  | .stuff x => Laws.RoundTrip.stuff x
  | .escCksum c => Laws.RoundTrip.escCksum c
  | .txWrite w => Laws.RoundTrip.txWrite w
  | .startMark => Laws.RoundTrip.startMark
  | .endMark => Laws.RoundTrip.endMark
  | .escEsc => Laws.RoundTrip.escEsc
  | .typeIn len => Laws.RoundTrip.typeIn len
  | .typeOut len => Laws.RoundTrip.typeOut len
  | .unrecognizedType t len => Laws.RoundTrip.unrecognizedType t len
  | .strayEsc x => Laws.RoundTrip.strayEsc x

/-- Settles O8: the operand forms of each code read back, and the two restricted operands are checked. -/
theorem encodeInvertsDecode : Obligations.EncodeInvertsDecode := by
  intro bytes i h
  cases bytes with
  | nil => cases h
  | cons c ops => exact decodeBody_ok h

/-- Settles O6: the decoder run on each word. -/
theorem tableWordsDecodeToTheirRows : Obligations.TableWordsDecodeToTheirRows := by
  unfold Obligations.TableWordsDecodeToTheirRows
  decide

/-- Settles O3: the branches of the step that run no transfer. -/
theorem stepWithoutATransaction : Obligations.StepWithoutATransaction := by
  refine ⟨fun s rest hport hinbox => ?_, fun s hport hinbox => ?_, fun s rest hport hinbox => ?_, fun s hport => ?_, fun s hport => ?_⟩
  · rw [step_of_opened hport, runOpen, hinbox]; rfl
  · rw [step_of_opened hport, runOpen, hinbox]
  · rw [step_of_opened hport, runOpen, hinbox]
  · rw [step, runInput, hport]
  · rw [step, runInput, hport]

/-- Settles O4: the open port's branch for a transfer, at the decoder's answer. -/
theorem stepRunsTheDecodedTransfer : Obligations.StepRunsTheDecodedTransfer := by
  intro s bytes rest i hport hinbox hdecode hwf
  rw [step_transfer hport hinbox, runTransfer, hdecode]
  exact if_pos hwf

/-- Settles O5: the decoder answers such a code with its name, which the step passes on. -/
theorem unassignedCodesAreRefused : Obligations.UnassignedCodesAreRefused := by
  intro s c ops rest hport hinbox hc
  rw [step_transfer hport hinbox, runTransfer, decode_unassigned hc]

end Sys2Proof.Proofs
end

/-! ## 40_synchronizer.md sections 2 and 5: the end scans, and the passes of DRAIN they decide -/

section
namespace Sys2Proof.Machine

theorem exec_endScanNaive (k : Nat) (s : State) :
    exec (.endScanNaive k) s = .next (s.give (.scan (endScanNaive s.buf k))) := rfl
theorem exec_endScanAware (k : Nat) (s : State) :
    exec (.endScanAware k) s = .next (s.give (.scan (endScanAware s.buf k))) := rfl

/-! ### The naive scan is `find` (R86) -/

section
variable {b : List Byte} {k e : Nat}

theorem endScanNaive_eq_found : endScanNaive b k = .found e ↔ FirstPair b Config.esc Config.etx (k + 2) e := by
  rw [← find_eq_some, endScanNaive]
  cases find b Config.esc Config.etx (k + 2) <;> simp

theorem endScanNaive_eq_wait : endScanNaive b k = .wait ↔ NoPair b Config.esc Config.etx (k + 2) := by
  rw [← find_eq_none, endScanNaive]
  cases find b Config.esc Config.etx (k + 2) <;> simp

end

/-! ### The branches of the aware walk (R87) -/

section
variable {p : Nat} {a x : Byte} {l : List Byte}

@[simp] theorem awareFrom_nil : awareFrom p [] = .wait := rfl
@[simp] theorem awareFrom_open : awareFrom p [Config.esc] = .wait := rfl
@[simp] theorem awareFrom_etx : awareFrom p (Config.esc :: Config.etx :: l) = .found p := rfl
@[simp] theorem awareFrom_pair : awareFrom p (Config.esc :: Config.esc :: l) = awareFrom (p + 2) l := rfl

theorem awareFrom_data (h : a ≠ Config.esc) : awareFrom p (a :: l) = awareFrom (p + 1) l := by
  cases l with
  | nil => rfl
  | cons x l => rw [awareFrom, if_neg h]

theorem awareFrom_stray (hetx : x ≠ Config.etx) (hesc : x ≠ Config.esc) :
    awareFrom p (Config.esc :: x :: l) = .abort p := by
  rw [awareFrom, if_pos rfl, if_neg hetx, if_neg hesc]

end

section
variable {b : List Byte} {st q : Nat}

theorem drop_of_getElem? {a : Byte} (h : b[q]? = some a) : b.drop q = a :: b.drop (q + 1) := by
  obtain ⟨hlt, rfl⟩ := List.getElem?_eq_some_iff.1 h
  exact List.drop_eq_getElem_cons hlt

/-- The walk is determined: from its start it does what it does from any index it visits. -/
theorem awareFrom_of_visits (h : AwareVisits b st q) : awareFrom st (b.drop st) = awareFrom q (b.drop q) := by
  induction h with
  | first => rfl
  | data _ hq ha ih => rw [ih, drop_of_getElem? hq, awareFrom_data ha]
  | pair _ hq ih => rw [ih, drop_of_pairAt hq, awareFrom_pair]

theorem awareFrom_eq_found {e : Nat} :
    awareFrom st (b.drop st) = .found e ↔ AwareVisits b st e ∧ PairAt b Config.esc Config.etx e := by
  refine ⟨(awareFrom_visits b st _ st rfl .first).1 e, fun ⟨hv, he⟩ => ?_⟩
  rw [awareFrom_of_visits hv, drop_of_pairAt he, awareFrom_etx]

theorem awareFrom_eq_abort : awareFrom st (b.drop st) = .abort q ↔
    AwareVisits b st q ∧ ∃ x, PairAt b Config.esc x q ∧ x ≠ Config.etx ∧ x ≠ Config.esc := by
  refine ⟨(awareFrom_visits b st _ st rfl .first).2.1 q, fun ⟨hv, x, hq, hetx, hesc⟩ => ?_⟩
  rw [awareFrom_of_visits hv, drop_of_pairAt hq, awareFrom_stray hetx hesc]

theorem awareFrom_eq_wait : awareFrom st (b.drop st) = .wait ↔
    ∃ q, AwareVisits b st q ∧ (b[q]? = none ∨ (b[q]? = some Config.esc ∧ b[q + 1]? = none)) := by
  refine ⟨(awareFrom_visits b st _ st rfl .first).2.2, fun ⟨q, hv, hend⟩ => ?_⟩
  rw [awareFrom_of_visits hv]
  obtain hnone | ⟨hesc, hnone⟩ := hend
  · rw [List.drop_eq_nil_of_le (List.getElem?_eq_none_iff.1 hnone), awareFrom_nil]
  · rw [drop_of_getElem? hesc, List.drop_eq_nil_of_le (List.getElem?_eq_none_iff.1 hnone), awareFrom_open]

end

end Sys2Proof.Machine

namespace Sys2Proof.Proofs

open Sys2Proof.Machine

/-- Settles O10: END_SCAN_NAIVE is R14's `find` from s + 2. -/
theorem endScanNaiveReturnsTheFirstEndMarker : Obligations.EndScanNaiveReturnsTheFirstEndMarker := fun s k =>
  ⟨endScanNaive s.buf k, exec_endScanNaive k s, fun _ => endScanNaive_eq_found, endScanNaive_eq_wait⟩

/-- Settles O11: the walk visits its indices in one order, so where it can stop is where it stops. -/
theorem endScanAwareWalksEscapePairs : Obligations.EndScanAwareWalksEscapePairs := fun s k =>
  ⟨endScanAware s.buf k, exec_endScanAware k s, fun _ => awareFrom_eq_found, fun _ => awareFrom_eq_abort, awareFrom_eq_wait⟩

/-- Settles O15: the pass stops at once with the payload pending. -/
theorem drainWaitsForTheEndMarker : Obligations.DrainWaitsForTheEndMarker := by
  intro s k t hfirst hlen ht hrec (hwait : endScan s.params s.buf k = .wait)
  obtain rfl := byteAt_of_getElem? ht
  rw [exec_drain, drain_of_stop ((drainPass_of_recognized hfirst hlen (isRecognized_eq_true.2 hrec)).1 hwait)]
  rfl

/-- Settles O16: the pass reports the abort, leaves the buffer from the stray escape on and goes on. -/
theorem drainAbortsAtAStrayEscape : Obligations.DrainAbortsAtAStrayEscape := by
  intro s k t p hfirst hlen ht hrec haware habort
  obtain rfl := byteAt_of_getElem? ht
  have hscan : endScan s.params s.buf k = .abort p := by rw [endScan, if_pos haware, habort]
  refine ⟨(endScan_abort hscan).2.1, ?_⟩
  rw [exec_drain, drain_of_again ((drainPass_of_recognized hfirst hlen (isRecognized_eq_true.2 hrec)).2.1 p hscan)]
  rfl

/-- Settles O18: a pass that goes on leaves a proper suffix, so |B| + 1 passes are never used up. -/
theorem drainTerminates : Obligations.DrainTerminates := by
  refine ⟨fun s t h => ⟨(drainPass_again h).1, ?_⟩, fun s t h => ?_, fun s f hf => ?_⟩
  · rw [exec_drain, drain_of_again h]
    rfl
  · rw [exec_drain, drain_of_stop h]
  · rw [exec_drain, drain, drainLoop_fuel _ f s (Nat.lt_succ_self _) hf]

end Sys2Proof.Proofs
end

/-! ## 41_escape_checksum.md section 2 and 42_codec.md sections 3 and 4: stuffing, ENCODE and the transmit path -/

section
namespace Sys2Proof.Machine

theorem exec_stuff (x : List Byte) (s : State) : exec (.stuff x) s = .next (s.give (.bytes (stuff x))) := rfl
theorem exec_escCksum (c : Byte) (s : State) : exec (.escCksum c) s = .next (s.give (.bytes (escCksum c))) := rfl
theorem exec_txWrite (w : List Byte) (s : State) :
    exec (.txWrite w) s = .next ((s.transportWrite w).give (.written (writeResult (s.nextCount w) w))) := rfl
theorem exec_txSend (m : Request) (s : State) : exec (.txSend m) s = .next (txSend m s) := rfl

/-! ### STUFF and ESC_CKSUM (R112, R113) -/

@[simp] theorem stuff_esc (x : List Byte) : stuff (Config.esc :: x) = Config.esc :: Config.esc :: stuff x := rfl

theorem stuff_cons {b : Byte} (h : b ≠ Config.esc) (x : List Byte) : stuff (b :: x) = b :: stuff x := by
  rw [stuff, if_neg h]

theorem length_stuff (x : List Byte) : (stuff x).length = x.length + x.count Config.esc := by
  induction x with
  | nil => rfl
  | cons b x ih =>
    by_cases h : b = Config.esc
    · subst h
      simp only [stuff_esc, List.length_cons, List.count_cons_self, ih]
      omega
    · simp only [stuff_cons h, List.length_cons, List.count_cons_of_ne h, ih]
      omega

theorem escCksum_of_ne {c : Byte} (h : c ≠ Config.esc) : escCksum c = [c] := if_neg h

/-! ### DESTUFF undoes both (R114) -/

theorem destuff_stuff (x : List Byte) : destuff (stuff x) = x := by
  induction x with
  | nil => rfl
  | cons b x ih =>
    by_cases h : b = Config.esc
    · rw [h, stuff_esc, destuff_pair, ih]
    · rw [stuff_cons h, destuff_cons fun hb => h hb.1, ih]

/-- The doubled or plain checksum passes as one byte, whatever stands before it: behind a lone final ESC the pair is taken one byte early,
with the same result. -/
theorem destuff_append_escCksum (h : List Byte) (c : Byte) : destuff (h ++ escCksum c) = destuff h ++ [c] := by
  by_cases hc : c = Config.esc
  · subst hc
    induction h using destuff_induction with
    | nil => rfl
    | pair r ih => rw [List.cons_append, List.cons_append, destuff_pair, destuff_pair, ih]; rfl
    | single a r ha ih =>
      cases r with
      | nil =>
        by_cases hesc : a = Config.esc
        · subst hesc; rfl
        · rw [destuff_cons ha, List.cons_append, destuff_cons fun h => hesc h.1, ih]; rfl
      | cons b r => rw [List.cons_append, destuff_cons ha, destuff_cons (by simpa using ha), ih]; rfl
  · rw [escCksum_of_ne hc]
    induction h using destuff_induction with
    | nil => rfl
    | pair r ih => rw [List.cons_append, List.cons_append, destuff_pair, destuff_pair, ih]; rfl
    | single a r ha ih =>
      rw [List.cons_append, destuff_cons ha, destuff_cons, ih]; · rfl
      cases r with
      | nil => simp [hc]
      | cons b r => simpa using ha

/-! ### The size of a frame (R66) -/

theorem encodeSpan_stuffed {p : Params} (h : p.escTxAll = true) (x : List Byte) :
    encodeSpan p x = stuff (x ++ [cksumCompute x]) := if_pos h

theorem encodeSpan_narrow {p : Params} (h : p.escTxAll = false) (x : List Byte) :
    encodeSpan p x = x ++ escCksum (cksumCompute x) := if_neg (by simp [h])

theorem length_encodeHead (m : Request) : (encodeHead m).length = 8 + m.data.length := by
  simp only [encodeHead, List.length_cons, length_encodePayload]
  omega

/-- The frame of a request of at most 223 data bytes (R135). -/
def wireFrame (p : Params) (m : Request) : List Byte :=
  [Config.esc, Config.stx] ++ encodeSpan p (encodeHead m) ++ [Config.esc, Config.etx]

theorem encodeFrame_eq_wireFrame (p : Params) {m : Request} (h : m.data.length ≤ 223) :
    encodeFrame p m = .frame (wireFrame p m) := encodeFrame_of_le p h

/-- What ENCODE answers as a frame is the request's wire frame. -/
theorem eq_wireFrame_of_exec {s : State} {m : Request} {w : List Byte} (h : m.data.length ≤ 223)
    (hw : exec (.encode m) s = .next { s with ret := .encoded (.frame w) }) : w = wireFrame s.params m := by
  rw [exec_encode, encodeFrame_eq_wireFrame s.params h] at hw
  simpa [State.give] using hw.symm

/-! ### The transport's answer (R138) -/

/-- `n` is how many bytes of `w` the transport takes next, and `rest` the answers after that. -/
abbrev TransportTakes (s : State) (w : List Byte) (n : Nat) (rest : List Nat) : Prop :=
  (s.answers = n :: rest ∧ n ≤ w.length) ∨ (s.answers = [] ∧ rest = [] ∧ n = w.length)

theorem nextCount_of_takes {s : State} {w : List Byte} {n : Nat} {rest : List Nat} (h : TransportTakes s w n rest) :
    s.nextCount w = n := by
  obtain ⟨ha, hle⟩ | ⟨ha, -, rfl⟩ := h
  · rw [State.nextCount, ha]; exact Nat.min_eq_left hle
  · rw [State.nextCount, ha]

/-- A write passes all of `w`, of which the transport takes `n` bytes. -/
theorem transportWrite_of_takes {s : State} {w : List Byte} {n : Nat} {rest : List Nat} (h : TransportTakes s w n rest) :
    s.transportWrite w = { s with writes := s.writes ++ [{ passed := w, taken := n }], answers := rest } := by
  rw [State.transportWrite, nextCount_of_takes h]
  obtain ⟨ha, -⟩ | ⟨ha, rfl, -⟩ := h <;> rw [ha] <;> rfl

theorem txSend_of_free {s : State} (h : s.txBusy = false) (m : Request) :
    txSend m s = (encodeAndWrite m (s.setBusy true)).setBusy false := if_neg (by simp [h])

end Sys2Proof.Machine

namespace Sys2Proof.Proofs

open Sys2Proof.Machine

/-- Settles O27: STUFF byte by byte, and one byte more for each ESC. -/
theorem stuffDoublesEveryEscape : Obligations.StuffDoublesEveryEscape := fun s x =>
  ⟨stuff x, exec_stuff x s, stuff_eq_flatMap x, length_stuff x⟩

/-- Settles O28: ESC_CKSUM's two branches. -/
theorem escCksumDoublesOnlyTheEscape : Obligations.EscCksumDoublesOnlyTheEscape := fun s c => exec_escCksum c s

/-- Settles O29: behind ESC_CKSUM, DESTUFF gives the checksum and DESTUFF of H, which is H iff H holds no escape pair. -/
theorem destuffInvertsStuffing : Obligations.DestuffInvertsStuffing := by
  refine ⟨fun s x => ⟨_, stuff x, exec_stuff x s, rfl, ?_⟩, fun s h c => ⟨_, escCksum c, exec_escCksum c s, rfl, ?_⟩⟩
  · rw [exec_destuff, destuff_stuff]
    rfl
  · rw [exec_destuff, destuff_append_escCksum, ← destuff_eq_self_iff h]
    simp [State.give]

/-- Settles O38: the head has 8 + dlen bytes, the markers and the checksum five, and each doubled ESC one more. -/
theorem encodeFrameSize : Obligations.EncodeFrameSize := by
  refine ⟨fun s m w hle hw => ?_, fun s m x => rfl⟩
  obtain rfl := eq_wireFrame_of_exec hle hw
  refine ⟨fun hall => ?_, fun hall => ?_⟩
  · show _ = 13 + m.data.length + List.count Config.esc _
    rw [wireFrame, encodeSpan_stuffed hall]
    simp only [List.length_append, List.length_cons, List.length_nil, length_stuff, length_encodeHead]
    omega
  · rw [wireFrame, encodeSpan_narrow hall]
    simp only [List.length_append, List.length_cons, List.length_nil, length_encodeHead, escCksum]
    split <;> simp <;> omega

/-- Settles O39: the count recorded is the transport's answer, and the line grows by that many bytes. -/
theorem txWriteReportsTheCount : Obligations.TxWriteReportsTheCount := by
  intro s w n rest h
  refine ⟨_, exec_txWrite w s, ?_, ?_⟩
  · rw [transportWrite_of_takes h, nextCount_of_takes h]
    rfl
  · rw [transportWrite_of_takes h]
    simp [State.line]

/-- Settles O40: between taking and releasing the lock stand the two outcomes of ENCODE. -/
theorem txSendEncodesAndWrites : Obligations.TxSendEncodesAndWrites := by
  intro s m hfree
  rw [exec_txSend, txSend_of_free hfree, encodeAndWrite, State.setBusy_params]
  refine ⟨fun hlt => ?_, fun hle => ⟨wireFrame s.params m, ?_, fun n rest h => ?_⟩⟩
  · rw [encodeFrame_of_lt _ hlt, ← hfree]
    rfl
  · rw [exec_encode, encodeFrame_eq_wireFrame _ hle]
    rfl
  · have hbusy : TransportTakes (s.setBusy true) (wireFrame s.params m) n rest := h
    rw [encodeFrame_eq_wireFrame _ hle]
    dsimp only
    rw [transportWrite_of_takes hbusy, nextCount_of_takes hbusy, ← hfree]
    rfl

/-- Settles O41: the branch that awaits. -/
theorem txSendAwaitsTheLock : Obligations.TxSendAwaitsTheLock := by
  intro s m hbusy
  rw [exec_txSend, txSend, if_pos hbusy]
  rfl

end Sys2Proof.Proofs
end

/-! ## 40_synchronizer.md section 5: the scans on a buffer that is put together from parts -/

section
namespace Sys2Proof.Machine

/-! ### Pairs in a sequence that is put together from two (R14) -/

section
variable {x y : Byte}

theorem pairAt_append_right (g b : List Byte) (j : Nat) : PairAt (g ++ b) x y (g.length + j) ↔ PairAt b x y j := by
  rw [← pairAt_drop, List.drop_left]

theorem pairAt_append_left {b : List Byte} {j : Nat} (c : List Byte) (h : j + 1 < b.length) :
    PairAt (b ++ c) x y j ↔ PairAt b x y j := by
  simp only [PairAt, List.getElem?_append_left h, List.getElem?_append_left (Nat.lt_of_succ_lt h)]

theorem noPair_def {b : List Byte} : NoPair b x y 0 ↔ ∀ j, ¬ PairAt b x y j :=
  ⟨fun h j hp => h j (by have := pairAt_lt hp; omega) (Nat.zero_le j) hp, fun h j _ _ => h j⟩

theorem firstPair_append {b : List Byte} {n k : Nat} (c : List Byte) (h : FirstPair b x y n k) :
    FirstPair (b ++ c) x y n k := by
  obtain ⟨hge, hk, hmin⟩ := h
  have hlt := pairAt_lt hk
  exact ⟨hge, (pairAt_append_left c hlt).2 hk, fun j hj hn hp => hmin j hj hn ((pairAt_append_left c (by omega)).1 hp)⟩

/-- A pair of two parts stands in one of them, or across the cut. -/
theorem noPair_append (l r : List Byte) :
    NoPair (l ++ r) x y 0 ↔ NoPair l x y 0 ∧ NoPair r x y 0 ∧ ¬ (l.getLast? = some x ∧ r.head? = some y) := by
  induction l with
  | nil => simp [noPair_def, PairAt]
  | cons a l ih =>
    rw [List.cons_append, noPair_cons, noPair_cons, ih]
    cases l with
    | nil => simp [noPair_def (b := []), PairAt]; tauto
    | cons b l => simp only [List.cons_append, List.head?_cons, List.getLast?_cons_cons]; tauto

/-- A marker behind `l` is the first iff there is none in `l`: it cannot begin with `l`'s last byte. -/
theorem firstPair_behind (hxy : x ≠ y) (l r : List Byte) :
    FirstPair (l ++ x :: y :: r) x y 0 l.length ↔ NoPair l x y 0 := by
  have hat : PairAt (l ++ x :: y :: r) x y l.length := (pairAt_append_right l _ 0).2 ⟨rfl, rfl⟩
  refine ⟨fun ⟨_, _, hmin⟩ => noPair_def.2 fun j hp => ?_, fun h => ⟨Nat.zero_le _, hat, fun j hj _ hp => ?_⟩⟩
  · have hlt := pairAt_lt hp
    exact hmin j (by omega) (Nat.zero_le j) ((pairAt_append_left _ hlt).2 hp)
  · by_cases hlt : j + 1 < l.length
    · exact noPair_def.1 h j ((pairAt_append_left _ hlt).1 hp)
    · have hlast : l.length = j + 1 := by omega
      have hx := hat.1
      rw [hlast] at hx
      exact hxy (Option.some.inj (hx.symm.trans hp.2))

end

/-! ### The end scan of a frame reads the bytes behind the start marker -/

@[simp] theorem ScanResult.shift_zero (r : ScanResult) : r.shift 0 = r := by cases r <;> rfl

theorem ScanResult.shift_shift (r : ScanResult) (m n : Nat) : (r.shift m).shift n = r.shift (n + m) := by
  cases r <;> simp only [ScanResult.shift] <;> congr 1 <;> omega

/-- The end scan of a frame that begins at index 0, on the bytes behind its start marker. -/
def payloadScan (p : Params) (l : List Byte) : ScanResult := endScan p (Config.esc :: Config.stx :: l) 0

section
variable {p : Params} {l : List Byte}

theorem payloadScan_aware (h : p.escAwareScan = true) : payloadScan p l = awareFrom 2 l := by
  rw [payloadScan, endScan, if_pos h]
  rfl

theorem payloadScan_naive (h : p.escAwareScan = false) :
    payloadScan p l = match find l Config.esc Config.etx 0 with
      | none => .wait
      | some e => .found (e + 2) := by
  rw [payloadScan, endScan, if_neg (by simp [h]), endScanNaive, find, find, pairIndex_shift]
  simp only [List.drop_succ_cons, List.drop_zero]
  cases pairIndex Config.esc Config.etx 0 l <;> rfl

theorem payloadScan_naive_wait (h : p.escAwareScan = false) :
    payloadScan p l = .wait ↔ NoPair l Config.esc Config.etx 0 := by
  rw [payloadScan_naive h, ← find_eq_none]
  cases find l Config.esc Config.etx 0 <;> simp

theorem payloadScan_naive_found (h : p.escAwareScan = false) {e : Nat} :
    payloadScan p l = .found (e + 2) ↔ FirstPair l Config.esc Config.etx 0 e := by
  rw [payloadScan_naive h, ← find_eq_some]
  cases find l Config.esc Config.etx 0 <;> simp

end

/-- Where the frame begins moves the end scan's answer, and nothing before it is read. -/
theorem endScan_eq_shift (p : Params) (b : List Byte) (k : Nat) :
    endScan p b k = (payloadScan p (b.drop (k + 2))).shift k := by
  cases h : p.escAwareScan with
  | true =>
    rw [payloadScan_aware h, endScan, if_pos h, endScanAware, ← awareFrom_shift]
    congr 1
    omega
  | false =>
    rw [payloadScan_naive h, endScan, if_neg (by simp [h]), endScanNaive, find, find, pairIndex_shift, List.drop_zero]
    cases pairIndex Config.esc Config.etx 0 (b.drop (k + 2)) with
    | none => rfl
    | some e => simp only [Option.map_some, ScanResult.shift]; congr 1; omega

theorem endScan_zero (p : Params) (b : List Byte) : endScan p b 0 = payloadScan p (b.drop 2) := by
  rw [endScan_eq_shift, ScanResult.shift_zero]

/-- Bytes before the frame move the end scan's answer. -/
theorem endScan_behind (p : Params) (g b : List Byte) (k : Nat) :
    endScan p (g ++ b) (g.length + k) = (endScan p b k).shift g.length := by
  rw [endScan_eq_shift, endScan_eq_shift, Nat.add_assoc, ScanResult.shift_shift, ← List.drop_drop, List.drop_left]

/-- What the end scan has settled, more bytes do not change. -/
theorem payloadScan_append {p : Params} {l : List Byte} (c : List Byte) (h : payloadScan p l ≠ .wait) :
    payloadScan p (l ++ c) = payloadScan p l := by
  cases ha : p.escAwareScan with
  | true =>
    rw [payloadScan_aware ha] at h ⊢
    rw [payloadScan_aware ha, awareFrom_append l c 2 h]
  | false =>
    cases hf : find l Config.esc Config.etx 0 with
    | none => rw [payloadScan_naive ha, hf] at h; exact absurd rfl h
    | some e =>
      have hfirst := (find_eq_some _ _ _ _ _).1 hf
      rw [(payloadScan_naive_found ha).2 hfirst, (payloadScan_naive_found ha).2 (firstPair_append c hfirst)]

theorem endScan_append {p : Params} {b : List Byte} {k : Nat} (c : List Byte) (hk : k + 2 ≤ b.length)
    (h : endScan p b k ≠ .wait) : endScan p (b ++ c) k = endScan p b k := by
  rw [endScan_eq_shift] at h ⊢
  rw [endScan_eq_shift, List.drop_append_of_le_length hk, payloadScan_append]
  exact fun hw => h (by rw [hw]; rfl)

/-! ### A token behind a pending payload (R73) -/

section
variable {p : Params} {l : List Byte}

/-- To the naive scan an ESC pair other than the end marker is data. -/
theorem payloadScan_naive_append_pair (h : p.escAwareScan = false) (hw : payloadScan p l = .wait) {x : Byte}
    (hx : x ≠ Config.etx) : payloadScan p (l ++ [Config.esc, x]) = .wait := by
  rw [payloadScan_naive_wait h] at hw ⊢
  refine (noPair_append l _).2 ⟨hw, ?_, fun hcut => absurd (Option.some.inj hcut.2) (by decide)⟩
  simp [noPair_cons, hx, noPair_def, PairAt]

/-- The naive scan ends at the first end marker (R86). -/
theorem payloadScan_naive_append_etx (h : p.escAwareScan = false) :
    payloadScan p (l ++ [Config.esc, Config.etx]) = .found (l.length + 2) ↔ NoPair l Config.esc Config.etx 0 := by
  rw [payloadScan_naive_found h]
  exact firstPair_behind (by decide) l []

/-- Where no escape is open, the aware scan meets the token at a pair boundary. -/
theorem payloadScan_append_closed (h : p.escAwareScan = true) (hw : payloadScan p l = .wait)
    (hopen : endsInOpenEscape l = false) (c : List Byte) : payloadScan p (l ++ c) = awareFrom (l.length + 2) c := by
  rw [payloadScan_aware h] at hw ⊢
  rw [awareFrom_append_wait l c 2 hw hopen, Nat.add_comm]

/-- Where an escape is open, the token's ESC is its partner. -/
theorem payloadScan_append_open (h : p.escAwareScan = true) (hw : payloadScan p l = .wait)
    (hopen : endsInOpenEscape l = true) (x : Byte) : payloadScan p (l ++ [Config.esc, x]) = .wait := by
  rw [payloadScan_aware h] at hw ⊢
  rw [awareFrom_append_open l [x] 2 hw hopen]
  rfl

end

end Sys2Proof.Machine
end

/-! ## 40_synchronizer.md section 2 and 30_encoding.md section 4: what DRAIN makes of a token behind the buffer -/

section
namespace Sys2Proof.Machine

/-! ### DRAIN, by what the buffer holds -/

section
variable {s : State}

/-- DRAIN does not read the FSM state. -/
theorem drain_setFsm (s : State) (v : Fsm) : drain (s.setFsm v) = drain s := by
  obtain ⟨new, b, w, hs, ht⟩ := drain_congr s (s.setFsm v) rfl rfl
  rw [hs, ht]
  rfl

/-- What may stay in the buffer stays, whatever the FSM state was. -/
theorem drain_of_shape {v : Fsm} (h : bufferShape s.params s.buf v = true) : drain s = s.setFsm v := by
  rw [← drain_setFsm s v]
  exact drain_of_bufferShape h

/-- Bytes without a start marker of which some are not kept (R83). -/
theorem drain_of_noPair (h : NoPair s.buf Config.esc Config.stx 0)
    (hlt : (keptTail s.params s.buf).length < s.buf.length) :
    drain s = { s with
      buf := keptTail s.params s.buf
      st := .searching
      events := s.events ++ [.framingError (s.buf.length - (keptTail s.params s.buf).length)] } := by
  rw [drain_of_stop (drainPass_of_noPair h), noMarker_eq, if_pos hlt]
  rfl

/-- A header in front of which no marker begins (R84). -/
theorem drain_of_header {k : Nat} (h : FirstPair s.buf Config.esc Config.stx 0 k) (hlen : s.buf.length ≤ k + 3) :
    drain s = { s with buf := s.buf.drop k, st := .headerPending } := drain_of_stop (drainPass_of_short h hlen)

end

theorem noPair_pair {x y a c : Byte} (h : a = x → c ≠ y) : NoPair [a, c] x y 0 := by
  simpa [noPair_cons, noPair_def, PairAt] using h

theorem length_keptTail_le (p : Params) (b : List Byte) : (keptTail p b).length ≤ 1 := by
  rw [keptTail]
  split <;> simp

theorem keptTail_concat (p : Params) (b : List Byte) (y : Byte) :
    keptTail p (b ++ [y]) = if p.keepTailEsc = true ∧ y = Config.esc then [Config.esc] else [] := by
  simp [keptTail]

/-- `w` is one frame from end to end: behind its header the end scan finds the end marker that ends it. -/
structure WholeFrame (p : Params) (w : List Byte) : Prop where
  mark : w.take 2 = [Config.esc, Config.stx]
  header : 4 ≤ w.length
  type : isRecognized (byteAt w 2) = true
  ends : endScan p w 0 = .found (w.length - 2)

/-- The bytes from the first through the last of a sequence of two or more are the sequence. -/
theorem slice_whole {b : List Byte} (h : 2 ≤ b.length) : slice b 0 (b.length - 2 + 1) = b := by
  rw [slice, List.drop_zero, List.take_of_length_le (by omega)]

/-- A whole frame goes to RX_PIPELINE and leaves nothing (R88). -/
theorem drain_of_wholeFrame {s : State} (h : WholeFrame s.params s.buf) :
    drain s = { s with buf := [], st := .searching, events := s.events ++ [frameEvent (destuff (spanOf s.buf))] } := by
  obtain ⟨hmark, hlen, ht, hends⟩ := h
  have hlt : 0 + 3 < s.buf.length := hlen
  rw [drain_of_again ((drainPass_of_recognized (firstPair_zero_of_take_two hmark) hlt ht).2.2 _ hends),
    slice_whole (by omega)]
  have hempty : (rxPipeline s.buf (s.bufDrop (s.buf.length - 2 + 2))).buf = [] := by
    rw [rxPipeline_buf, State.bufDrop_buf]
    exact List.drop_eq_nil_of_le (by omega)
  rw [drain_of_shape (v := .searching) ((bufferShape_searching _ _).2 (.inl hempty))]
  obtain ⟨p, b, st, ev, tb, tr, w, r, i, a, po⟩ := s
  simp_all [State.setFsm, rxPipeline, State.emit, State.bufDrop]

/-! ### FEED, by what DRAIN makes of the longer buffer -/

theorem fits_mono {p : Params} {m n : Nat} (h : fits p n = true) (hle : m ≤ n) : fits p m = true :=
  fits_eq_true.2 fun c hc => hle.trans (fits_eq_true.1 h c hc)

theorem feed_of_drain {c : List Byte} {s t : State} (h : drain (s.bufAppend c) = t) (hfits : fits s.params t.buf.length = true) :
    feed c s = t := by
  have hparams : t.params = s.params := by rw [← h, drain_params]; rfl
  rw [feed, h, overflowCheck_of_fits (by rwa [hparams])]

/-- A chunk that leaves a buffer of R23 within the bound is appended, and that is all. -/
theorem feed_of_shape {b c : List Byte} {s : State} {v : Fsm} (hb : s.buf ++ c = b) (h : bufferShape s.params b v = true)
    (hfits : fits s.params b.length = true) : feed c s = { s with buf := b, st := v } := by
  subst hb
  exact feed_of_drain (drain_of_shape (s := s.bufAppend c) h) hfits

/-! ### A pending payload -/

theorem take_two_append {b : List Byte} {x y : Byte} (h : b.take 2 = [x, y]) (c : List Byte) : (b ++ c).take 2 = [x, y] := by
  rw [List.take_append_of_le_length (length_of_take_two h), h]

theorem byteAt_append_left {b : List Byte} {i : Nat} (h : i < b.length) (c : List Byte) : byteAt (b ++ c) i = byteAt b i := by
  simp only [byteAt, List.getD_eq_getElem?_getD, List.getElem?_append_left h]

section
variable {p : Params} {b : List Byte}

/-- A pending payload's end scan reads the bytes behind the start marker, and waits. -/
theorem payloadScan_of_shape (h : bufferShape p b .payloadPending = true) : payloadScan p (b.drop 2) = .wait := by
  rw [← endScan_zero]
  exact ((bufferShape_payloadPending p b).1 h).2.2.2

theorem endScan_append_shape (h : bufferShape p b .payloadPending = true) (c : List Byte) :
    endScan p (b ++ c) 0 = payloadScan p (b.drop 2 ++ c) := by
  have hlen := ((bufferShape_payloadPending p b).1 h).2.1
  rw [endScan_zero, List.drop_append_of_le_length (by omega)]

/-- The payload stays pending with the bytes behind which its end scan still waits. -/
theorem bufferShape_append (h : bufferShape p b .payloadPending = true) {c : List Byte}
    (hw : payloadScan p (b.drop 2 ++ c) = .wait) : bufferShape p (b ++ c) .payloadPending = true := by
  obtain ⟨hmark, hlen, ht, -⟩ := (bufferShape_payloadPending p b).1 h
  refine (bufferShape_payloadPending p _).2 ⟨take_two_append hmark c, ?_, ?_, ?_⟩
  · rw [List.length_append]; omega
  · rwa [byteAt_append_left (by omega)]
  · rwa [endScan_append_shape h]

theorem feed_payload {s : State} (h : bufferShape s.params s.buf .payloadPending = true) {c : List Byte}
    (hw : payloadScan s.params (s.buf.drop 2 ++ c) = .wait) (hfits : fits s.params (s.buf.length + c.length) = true) :
    feed c s = { s with buf := s.buf ++ c, st := .payloadPending } :=
  feed_of_shape rfl (bufferShape_append h hw) (by rwa [List.length_append])

/-- The end scan finds the end marker that arrives behind a pending payload, unless the aware scan has an escape open there. -/
theorem payloadScan_append_etx (h : bufferShape p b .payloadPending = true)
    (hopen : p.escAwareScan = true → endsInOpenEscape (b.drop 2) = false) :
    payloadScan p (b.drop 2 ++ [Config.esc, Config.etx]) = .found b.length := by
  have hlen := ((bufferShape_payloadPending p b).1 h).2.1
  have hw := payloadScan_of_shape h
  have hb : b.length = (b.drop 2).length + 2 := by rw [List.length_drop]; omega
  rw [hb]
  cases ha : p.escAwareScan with
  | true => rw [payloadScan_append_closed ha hw (hopen ha), awareFrom_etx]
  | false => exact (payloadScan_naive_append_etx ha).2 ((payloadScan_naive_wait ha).1 hw)

theorem wholeFrame_append_etx (h : bufferShape p b .payloadPending = true)
    (hopen : p.escAwareScan = true → endsInOpenEscape (b.drop 2) = false) :
    WholeFrame p (b ++ [Config.esc, Config.etx]) := by
  obtain ⟨hmark, hlen, ht, -⟩ := (bufferShape_payloadPending p b).1 h
  refine ⟨take_two_append hmark _, ?_, ?_, ?_⟩
  · rw [List.length_append]; omega
  · rwa [byteAt_append_left (by omega)]
  · rw [endScan_append_shape h, payloadScan_append_etx h hopen]
    simp

/-- A stray escape behind a pending payload aborts it, where the aware scan has no escape open: DRAIN goes on from the stray escape. -/
theorem drain_append_stray {s : State} (h : bufferShape s.params s.buf .payloadPending = true)
    (ha : s.params.escAwareScan = true) (hopen : endsInOpenEscape (s.buf.drop 2) = false) {x : Byte}
    (hetx : x ≠ Config.etx) (hesc : x ≠ Config.esc) :
    drain (s.bufAppend [Config.esc, x]) =
      drain { s with buf := [Config.esc, x], events := s.events ++ [.frameAbort s.buf.length] } := by
  obtain ⟨hmark, hlen, ht, -⟩ := (bufferShape_payloadPending s.params s.buf).1 h
  have hscan : endScan s.params (s.buf ++ [Config.esc, x]) 0 = .abort s.buf.length := by
    rw [endScan_append_shape h, payloadScan_append_closed ha (payloadScan_of_shape h) hopen, awareFrom_stray hetx hesc]
    congr 1
    rw [List.length_drop]
    omega
  have hpass := (drainPass_of_recognized (s := s.bufAppend [Config.esc, x])
    (firstPair_zero_of_take_two (take_two_append hmark _)) (by simp; omega)
    (by rwa [State.bufAppend_buf, byteAt_append_left (by omega)])).2.1 _ hscan
  rw [drain_of_again hpass]
  simp [State.emit, State.bufDrop, State.bufAppend]

section
variable {s : State} (h : bufferShape s.params s.buf .payloadPending = true) (ha : s.params.escAwareScan = true)
  (hopen : endsInOpenEscape (s.buf.drop 2) = false)
include h ha hopen

/-- The start marker that aborts a frame is the header of the next (R70). -/
theorem feed_startMark_aborts (hfits : fits s.params 2 = true) : feed [Config.esc, Config.stx] s = { s with
    buf := [Config.esc, Config.stx]
    st := .headerPending
    events := s.events ++ [.frameAbort s.buf.length] } := by
  refine feed_of_drain ?_ hfits
  rw [drain_append_stray h ha hopen (by decide) (by decide)]
  exact drain_of_shape (v := .headerPending) ((bufferShape_headerPending _ _).2 ⟨rfl, by simp⟩)

/-- Any other stray escape aborts the frame and is discarded. -/
theorem feed_stray_aborts {x : Byte} (hstx : x ≠ Config.stx) (hetx : x ≠ Config.etx) (hesc : x ≠ Config.esc) :
    feed [Config.esc, x] s = { s with
      buf := []
      st := .searching
      events := s.events ++ [.frameAbort s.buf.length, .framingError 2] } := by
  have hkeep : keptTail s.params [Config.esc, x] = [] := by simp [keptTail, hesc]
  refine feed_of_drain ?_ (fits_zero _)
  rw [drain_append_stray h ha hopen hetx hesc, drain_of_noPair (noPair_pair fun _ => hstx) (by simp [hkeep])]
  simp [hkeep]

end

end

/-! ### A token into a searching buffer, and a header's type -/

theorem bufferShape_startMark (p : Params) : bufferShape p [Config.esc, Config.stx] .headerPending = true :=
  (bufferShape_headerPending p _).2 ⟨rfl, by decide⟩

/-- A recognised type byte, which is no ESC, and the length byte behind it hold no end marker (R57, R71). -/
theorem bufferShape_typeByte (p : Params) {t : Byte} (ht : isRecognized t = true) (len : Byte) :
    bufferShape p [Config.esc, Config.stx, t, len] .payloadPending = true := by
  have hesc : t ≠ Config.esc := by rintro rfl; cases ht
  refine (bufferShape_payloadPending p _).2 ⟨rfl, by simp, ht, ?_⟩
  rw [endScan_zero]
  show payloadScan p [t, len] = .wait
  cases ha : p.escAwareScan with
  | true => rw [payloadScan_aware ha, awareFrom_data hesc]; rfl
  | false => exact (payloadScan_naive_wait ha).2 (noPair_pair fun h => absurd h hesc)

/-- While searching, two bytes that bring no start marker are discarded, but for a final ESC that is kept (R83). -/
theorem feed_discards {s : State} (h : bufferShape s.params s.buf .searching = true) {u y : Byte} (hu : u ≠ Config.stx)
    (huy : u = Config.esc → y ≠ Config.stx) {keep : List Byte}
    (hkeep : keep = if s.params.keepTailEsc = true ∧ y = Config.esc then [Config.esc] else [])
    (hfits : fits s.params keep.length = true) :
    feed [u, y] s = { s with
      buf := keep
      st := .searching
      events := s.events ++ [.framingError (s.buf.length + 2 - keep.length)] } := by
  have hno : NoPair (s.buf ++ [u, y]) Config.esc Config.stx 0 :=
    (noPair_append _ _).2 ⟨noPair_of_bufferShape h _ _, noPair_pair huy, fun hcut => hu (Option.some.inj hcut.2)⟩
  have htail : keptTail s.params (s.buf ++ [u, y]) = keep := by
    rw [hkeep, ← keptTail_concat s.params (s.buf ++ [u]) y, List.append_assoc]
    rfl
  have hle := length_keptTail_le s.params (s.buf ++ [u, y])
  refine feed_of_drain ?_ hfits
  rw [drain_of_noPair (s := s.bufAppend [u, y]) hno (Nat.lt_of_le_of_lt hle (by simp))]
  simp [htail, State.bufAppend]

/-- An unrecognised type behind a start marker at the front is reported, and DRAIN goes on from the second byte (R85). -/
theorem drain_of_unrecognized {s : State} {t len : Byte} (hbuf : s.buf = [Config.esc, Config.stx, t, len])
    (ht : isRecognized t = false) :
    drain s = drain { s with buf := [Config.stx, t, len], events := s.events ++ [.unrecognizedType t] } := by
  have hfirst : FirstPair s.buf Config.esc Config.stx 0 0 := firstPair_zero_of_take_two (by rw [hbuf]; rfl)
  have hbyte : byteAt s.buf (0 + 2) = t := by rw [hbuf]; rfl
  rw [drain_of_again (drainPass_of_unrecognized hfirst (by simp [hbuf]) (by rwa [hbyte])), hbyte]
  simp [State.emit, State.bufDrop, hbuf]

end Sys2Proof.Machine

namespace Sys2Proof.Proofs

open Sys2Proof.Machine

/-- Settles O56: the pending payload and END are one whole frame. -/
theorem endMarkCompletesTheFrame : Obligations.EndMarkCompletesTheFrame := by
  intro s h hopen
  refine ⟨_, exec_rxPipeline _ _, ?_⟩
  have hframe := wholeFrame_append_etx h hopen
  rw [exec_eq_run]
  exact congrArg _ (feed_of_drain (drain_of_wholeFrame (s := s.bufAppend [Config.esc, Config.etx]) hframe) (fits_zero _))

theorem wellFormed_strayEsc {x : Byte} :
    Instr.wellFormed (.strayEsc x) = true ↔ x ≠ Config.stx ∧ x ≠ Config.etx ∧ x ≠ Config.esc := by
  simp [Instr.wellFormed, and_assoc]

/-- Settles O57: ESCESC never ends a frame; to the naive scan, and behind an open escape, the other tokens named are data too; at a pair
boundary of the aware scan START and a stray escape abort the frame. -/
theorem escapesInsideAPayload : Obligations.EscapesInsideAPayload := by
  intro s h hfits
  have hw := payloadScan_of_shape h
  have hkept : ∀ {x}, payloadScan s.params (s.buf.drop 2 ++ [Config.esc, x]) = .wait →
      feed [Config.esc, x] s = { s with buf := s.buf ++ [Config.esc, x], st := .payloadPending } :=
    fun hwait => feed_payload h hwait hfits
  simp only [exec_eq_run]
  refine ⟨congrArg _ (hkept ?_), fun ha => ?_, fun ha hopen => ?_, fun ha hopen => ?_⟩
  · cases ha : s.params.escAwareScan with
    | false => exact payloadScan_naive_append_pair ha hw (by decide)
    | true =>
      cases hopen : endsInOpenEscape (s.buf.drop 2) with
      | true => exact payloadScan_append_open ha hw hopen _
      | false => rw [payloadScan_append_closed ha hw hopen]; rfl
  · have hdata : ∀ {x}, x ≠ Config.etx → _ := fun hx => hkept (payloadScan_naive_append_pair ha hw hx)
    exact ⟨congrArg _ (hdata (by decide)), fun x hx => congrArg _ (hdata (wellFormed_strayEsc.1 hx).2.1)⟩
  · have htwo : fits s.params 2 = true := fits_mono hfits (by simp)
    refine ⟨congrArg _ (feed_startMark_aborts h ha hopen htwo), fun x hx => ?_⟩
    obtain ⟨hstx, hetx, hesc⟩ := wellFormed_strayEsc.1 hx
    exact congrArg _ (feed_stray_aborts h ha hopen hstx hetx hesc)
  · have hdata := fun x => hkept (payloadScan_append_open ha hw hopen x)
    exact ⟨congrArg _ (hdata _), congrArg _ (hdata _), fun x _ => congrArg _ (hdata x)⟩

/-- Settles O55: each token leaves a buffer of R23, the first a header and the second a payload. -/
theorem tokensOpenAFrame : Obligations.TokensOpenAFrame := by
  simp only [Obligations.TokensOpenAFrame, exec_eq_run]
  refine ⟨fun s hbuf hfits => ?_, fun s len hbuf hfits => ⟨?_, ?_⟩⟩
  · exact congrArg _ (feed_of_shape (by rw [hbuf]; rfl) (bufferShape_startMark _) hfits)
  · exact congrArg _ (feed_of_shape (by rw [hbuf]; rfl) (bufferShape_typeByte _ rfl len) hfits)
  · exact congrArg _ (feed_of_shape (by rw [hbuf]; rfl) (bufferShape_typeByte _ rfl len) hfits)

/-- Settles O60: START is the first marker behind a kept ESC too; no other token brings one. -/
theorem tokensWhileSearching : Obligations.TokensWhileSearching := by
  intro s h
  simp only [exec_eq_run]
  refine ⟨fun hfits => congrArg _ (feed_of_drain ?_ hfits), fun i y keep hi hkeep hfits => ?_⟩
  · have hfirst := (firstPair_behind (by decide) s.buf []).2 (noPair_of_bufferShape h Config.esc Config.stx)
    rw [drain_of_header (s := s.bufAppend [Config.esc, Config.stx]) hfirst (by simp)]
    simp [State.bufAppend]
  · have htoken : ∃ u, effectOf i = .feed [u, y] ∧ u ≠ Config.stx ∧ (u = Config.esc → y ≠ Config.stx) := by
      rcases hi with ⟨rfl, rfl⟩ | ⟨rfl, rfl⟩ | rfl | rfl | ⟨rfl, hwf⟩
      · exact ⟨_, rfl, by decide, fun _ => by decide⟩
      · exact ⟨_, rfl, by decide, fun _ => by decide⟩
      · exact ⟨_, rfl, by decide, fun h => absurd h (by decide)⟩
      · exact ⟨_, rfl, by decide, fun h => absurd h (by decide)⟩
      · exact ⟨_, rfl, by decide, fun _ => (wellFormed_strayEsc.1 hwf).1⟩
    obtain ⟨u, heffect, hu, huy⟩ := htoken
    rw [heffect]
    exact congrArg _ (feed_discards h hu huy hkeep hfits)

/-- Settles O58: behind the marker's first byte stands a new marker only where the type and the byte after it are one. -/
theorem unrecognizedTypeResynchronizes : Obligations.UnrecognizedTypeResynchronizes := by
  intro s t len hbuf hwf hfits
  have ht : isRecognized t = false := by simpa [Instr.wellFormed] using hwf
  have hwhole : (s.bufAppend [Config.esc, Config.stx, t, len]).buf = [Config.esc, Config.stx, t, len] := by
    rw [State.bufAppend_buf, hbuf, List.nil_append]
  have hdrain := drain_of_unrecognized hwhole ht
  rw [exec_eq_run]
  refine ⟨fun ⟨htype, hlen⟩ => congrArg _ (feed_of_drain ?_ hfits), fun hne keep hkeep => congrArg _ (feed_of_drain ?_ ?_)⟩
  · subst htype hlen
    have hno : NoPair [Config.stx] Config.esc Config.stx 0 := noPair_def.2 fun j hp => by simpa using pairAt_lt hp
    rw [hdrain, drain_of_header ((firstPair_behind (by decide) [Config.stx] []).2 hno) (by simp)]
    simp [State.bufAppend]
  · have htail : keptTail s.params [Config.stx, t, len] = keep := hkeep ▸ keptTail_concat s.params [Config.stx, t] len
    have hle := length_keptTail_le s.params [Config.stx, t, len]
    have hno : NoPair [Config.stx, t, len] Config.esc Config.stx 0 :=
      (noPair_cons _ _ _ _).2 ⟨fun hp => absurd hp.1 (by decide), noPair_pair fun h hl => hne ⟨h, hl⟩⟩
    rw [hdrain, drain_of_noPair hno (Nat.lt_of_le_of_lt hle (by simp))]
    simp [htail, State.bufAppend]
  · refine fits_mono hfits ?_
    rw [hkeep]
    split <;> simp

end Sys2Proof.Proofs
end

/-! ## 42_codec.md section 5: the round trip -/

section
namespace Sys2Proof.Machine

/-! ### A FEED that delivers one message and leaves nothing is a FEED of one whole frame -/

theorem drain_events (s : State) : ∃ new, (drain s).events = s.events ++ new := by
  obtain ⟨new, b, v, h, -⟩ := drain_congr s s rfl rfl
  exact ⟨new, by rw [h]⟩

theorem drainPass_again_events {s t : State} (h : drainPass s = .again t) : ∃ e, t.events = s.events ++ [e] := by
  cases passOutcome_of_eq h <;> exact ⟨_, rfl⟩

/-- DRAIN does not lose bytes silently: what it empties without an event was empty. -/
theorem buf_eq_nil_of_drain_silent {s : State} (hevents : (drain s).events = s.events) (hbuf : (drain s).buf = []) :
    s.buf = [] := by
  cases h : drainPass s with
  | again t =>
    obtain ⟨e, ht⟩ := drainPass_again_events h
    obtain ⟨new, hnew⟩ := drain_events t
    rw [drain_of_again h, hnew, ht] at hevents
    simp at hevents
  | stop t =>
    rw [drain_of_stop h] at hevents hbuf
    cases passOutcome_of_eq h with
    | noMarker hno =>
      rw [noMarker_eq] at hevents hbuf
      have hkept : ¬ (keptTail s.params s.buf).length < s.buf.length := fun hlt => by simp [hlt, State.setFsm] at hevents
      have hnil : keptTail s.params s.buf = [] := hbuf
      rw [hnil] at hkept
      simpa using hkept
    | header hfirst | wait hfirst =>
      have := pairAt_lt hfirst.2.1
      have := List.drop_eq_nil_iff.1 hbuf
      omega

/-- Of a DRAIN that appends one event, the pass that emits it leaves what DRAIN then drains silently. -/
theorem drain_single_event {s t : State} {e : Event} (h : drainPass s = .again t)
    (hevents : (drain s).events = s.events ++ [e]) (hbuf : (drain s).buf = []) : t.events = s.events ++ [e] ∧ t.buf = [] := by
  rw [drain_of_again h] at hevents hbuf
  obtain ⟨e', ht⟩ := drainPass_again_events h
  obtain ⟨new, hnew⟩ := drain_events t
  have hlist : [e'] ++ new = [e] := by
    rw [hnew, ht, List.append_assoc] at hevents
    exact List.append_cancel_left hevents
  obtain ⟨rfl, rfl⟩ : e' = e ∧ new = [] := by simpa using hlist
  exact ⟨ht, buf_eq_nil_of_drain_silent (by rw [hnew, List.append_nil]) hbuf⟩

/-- A DRAIN of bytes from a start marker on that delivers one message and leaves nothing had one whole frame before it. -/
theorem wholeFrame_of_drain {s : State} {m : Message} (hmark : s.buf.take 2 = [Config.esc, Config.stx])
    (hevents : (drain s).events = s.events ++ [.msgDelivered m]) (hbuf : (drain s).buf = []) :
    WholeFrame s.params s.buf ∧ frameEvent (destuff (spanOf s.buf)) = .msgDelivered m := by
  have hzero : ∀ {k}, FirstPair s.buf Config.esc Config.stx 0 k → k = 0 := fun {k} ⟨_, _, hmin⟩ => by
    by_contra hk
    exact hmin 0 (Nat.pos_of_ne_zero hk) le_rfl (firstPair_zero_of_take_two hmark).2.1
  have hlen := length_of_take_two hmark
  cases h : drainPass s with
  | stop t =>
    rw [drain_of_stop h] at hevents hbuf
    cases passOutcome_of_eq h with
    | noMarker hno => exact absurd (firstPair_zero_of_take_two hmark).2.1 (noPair_def.1 hno 0)
    | header | wait => simp at hevents
  | again t =>
    obtain ⟨ht, hnil⟩ := drain_single_event h hevents hbuf
    cases passOutcome_of_eq h with
    | unrecognized | abort => simp at ht
    | @found k e hfirst hlt htype hend =>
      obtain rfl := hzero hfirst
      have hle : s.buf.length ≤ e + 2 := List.drop_eq_nil_iff.1 hnil
      have := pairAt_lt (endScan_found hend).2
      obtain rfl : e = s.buf.length - 2 := by omega
      rw [slice_whole hlen] at ht
      exact ⟨⟨hmark, hlt, htype, hend⟩, by simpa using ht⟩

/-- FEED of bytes from a start marker on, into an empty buffer, appends exactly one MSG_DELIVERED and leaves nothing iff the bytes are one
whole frame that carries the message. -/
theorem feed_delivers_iff {s : State} {w : List Byte} {m : Message} (hbuf : s.buf = [])
    (hmark : w.take 2 = [Config.esc, Config.stx]) :
    feed w s = { s with st := .searching, events := s.events ++ [.msgDelivered m] } ↔
      WholeFrame s.params w ∧ frameEvent (destuff (spanOf w)) = .msgDelivered m := by
  have hw : (s.bufAppend w).buf = w := by rw [State.bufAppend_buf, hbuf, List.nil_append]
  constructor
  · intro h
    have hevents : (feed w s).events = s.events ++ [.msgDelivered m] := by rw [h]
    have hnil : (feed w s).buf = [] := by rw [h]; exact hbuf
    rw [feed] at hevents hnil
    obtain ⟨-, hcheck⟩ | ⟨-, hcheck⟩ := overflowCheck_cases (drain (s.bufAppend w))
    · rw [hcheck] at hevents hnil
      have := wholeFrame_of_drain (by rwa [hw]) hevents hnil
      rwa [hw] at this
    · rw [hcheck] at hevents
      have := congrArg List.getLast? hevents
      simp at this
  · rintro ⟨hframe, hevent⟩
    rw [← hw] at hframe hevent
    rw [feed_of_drain (drain_of_wholeFrame (s := s.bufAppend w) hframe) (fits_zero _), hevent]
    simp [State.bufAppend, hbuf]

end Sys2Proof.Machine
end

/-! ## 42_codec.md section 5: which requests read back (R140) -/

section
namespace Sys2Proof.Machine

/-! ### What the receive pipeline makes of ENCODE's bytes -/

/-- DECODE_94 reads the head ENCODE packs back to its request, with source 0 (R133). -/
theorem decode94_encodeHead {m : Request} (h : m.data.length ≤ 223) : decode94 (encodeHead m) = .msg (messageOf m) := by
  have hdlen : byteAt (encodeHead m) 7 = BitVec.ofNat 8 m.data.length := rfl
  have hn : (BitVec.ofNat 8 m.data.length).toNat = m.data.length := by
    rw [BitVec.toNat_ofNat]
    omega
  have hdata : ((encodeHead m).drop 8).take (BitVec.ofNat 8 m.data.length).toNat = m.data := by
    rw [hn]
    exact List.take_length
  rw [decode94_eq, decodeLayout_of_complete hdlen (by omega) (by rw [length_encodeHead, hn])]
  simp only [messageAt, hdlen, hdata]
  congr 2
  exact pgnOf_bytes m.pgn

theorem encodeHead_cons (m : Request) : ∃ r, encodeHead m = Config.typeOut :: r := ⟨_, rfl⟩

/-- ENCODE's bytes, unstuffed, deliver the request's message. -/
theorem frameEvent_encoded {m : Request} (h : m.data.length ≤ 223) :
    frameEvent (encodeHead m ++ [cksumCompute (encodeHead m)]) = .msgDelivered (messageOf m) := by
  obtain ⟨r, hr⟩ := encodeHead_cons m
  have hdecode := decode94_encodeHead h
  rw [hr] at hdecode ⊢
  rw [frameEvent_of_verify (by rw [cksumVerify_concat, beq_self_eq_true]), decodeByType_cons, if_neg (by decide), hdecode]
  rfl

/-- A shorter head does not carry the message: DECODE_94 needs all its data bytes. -/
theorem frameEvent_ne_of_short {m : Request} (h : m.data.length ≤ 223) {r : List Byte} {c : Byte}
    (hshort : (Config.typeOut :: r).length < (encodeHead m).length) :
    frameEvent (Config.typeOut :: r ++ [c]) ≠ .msgDelivered (messageOf m) := by
  intro hevent
  cases hv : cksumVerify (Config.typeOut :: r ++ [c]) with
  | false => rw [frameEvent_of_not_verify hv] at hevent; cases hevent
  | true =>
    rw [frameEvent_of_verify hv, decodeByType_cons, if_neg (by decide), decode94_eq] at hevent
    obtain ⟨need, hbad⟩ | ⟨hle, -, hmsg⟩ := decodeLayout_cases 0x94#8 8 0x00#8 (Config.typeOut :: r)
    · rw [hbad] at hevent; cases hevent
    · rw [hmsg] at hevent
      have hdlen : byteAt (Config.typeOut :: r) (8 - 1) = BitVec.ofNat 8 m.data.length :=
        congrArg Message.dlen (Event.msgDelivered.inj hevent)
      rw [hdlen, BitVec.toNat_ofNat] at hle
      rw [length_encodeHead] at hshort
      omega

/-- Behind a head DESTUFF has shortened no message of the request's length is left (R114, R140). -/
theorem frameEvent_destuffed_iff {m : Request} (h : m.data.length ≤ 223) :
    frameEvent (destuff (encodeHead m ++ escCksum (cksumCompute (encodeHead m)))) = .msgDelivered (messageOf m) ↔
      NoPair (encodeHead m) Config.esc Config.esc 0 := by
  rw [destuff_append_escCksum, ← destuff_eq_self_iff]
  refine ⟨fun hevent => ?_, fun hself => by rw [hself, frameEvent_encoded h]⟩
  by_contra hne
  have hsub := destuff_sublist (encodeHead m)
  have hlt : (destuff (encodeHead m)).length < (encodeHead m).length :=
    Nat.lt_of_le_of_ne hsub.length_le fun hlen => hne (hsub.eq_of_length hlen)
  obtain ⟨r, hr⟩ := encodeHead_cons m
  have hhead : destuff (encodeHead m) = Config.typeOut :: destuff r := by
    rw [hr, destuff_cons fun h => absurd h.1 (by decide)]
  rw [hhead] at hevent hlt
  exact frameEvent_ne_of_short h hlt hevent

/-! ### Where the end scan stops in a span -/

/-- A frame's markers around a span: it is whole iff the end scan finds the end marker behind the span. -/
theorem wholeFrame_markers {p : Params} {t : Byte} {r : List Byte} (ht : isRecognized t = true) :
    WholeFrame p ([Config.esc, Config.stx] ++ t :: r ++ [Config.esc, Config.etx]) ↔
      payloadScan p (t :: r ++ [Config.esc, Config.etx]) = .found ((t :: r).length + 2) := by
  have hscan : endScan p ([Config.esc, Config.stx] ++ t :: r ++ [Config.esc, Config.etx]) 0 =
      payloadScan p (t :: r ++ [Config.esc, Config.etx]) := endScan_zero p _
  have hlen : ([Config.esc, Config.stx] ++ t :: r ++ [Config.esc, Config.etx]).length - 2 = (t :: r).length + 2 := by simp
  refine ⟨fun h => by rw [← hscan, h.ends, hlen], fun h => ⟨rfl, by simp, ht, by rw [hscan, h, hlen]⟩⟩

/-- The aware walk passes a stuffed span pair by pair. -/
theorem awareFrom_stuff (x l : List Byte) : ∀ p, awareFrom p (stuff x ++ l) = awareFrom (p + (stuff x).length) l := by
  induction x with
  | nil => intro p; rfl
  | cons b x ih =>
    intro p
    by_cases h : b = Config.esc
    · subst h
      rw [stuff_esc, List.cons_append, List.cons_append, awareFrom_pair, ih]
      congr 1
      simp only [List.length_cons]
      omega
    · rw [stuff_cons h, List.cons_append, awareFrom_data h, ih]
      congr 1
      simp only [List.length_cons]
      omega

theorem head?_stuff (x : List Byte) : (stuff x).head? = x.head? := by
  cases x with
  | nil => rfl
  | cons b x =>
    by_cases h : b = Config.esc
    · rw [h]; rfl
    · rw [stuff_cons h]; rfl

/-- Stuffing neither makes nor breaks an end marker: the naive scan sees those of the span. -/
theorem noPair_stuff (x : List Byte) : NoPair (stuff x) Config.esc Config.etx 0 ↔ NoPair x Config.esc Config.etx 0 := by
  induction x with
  | nil => exact Iff.rfl
  | cons b x ih =>
    by_cases h : b = Config.esc
    · subst h
      have hpair : ¬ (Config.esc = Config.esc ∧ (Config.esc :: stuff x).head? = some Config.etx) := fun hp =>
        absurd (Option.some.inj hp.2) (by decide)
      rw [stuff_esc, noPair_cons, and_iff_right hpair, noPair_cons, noPair_cons, ih, head?_stuff]
    · rw [stuff_cons h, noPair_cons, noPair_cons, ih, head?_stuff]

theorem stuff_of_not_mem {x : List Byte} (h : Config.esc ∉ x) : stuff x = x := by
  induction x with
  | nil => rfl
  | cons b x ih =>
    rw [stuff_cons (List.ne_of_not_mem_cons h).symm, ih (List.not_mem_of_not_mem_cons h)]

theorem stuff_append (x y : List Byte) : stuff (x ++ y) = stuff x ++ stuff y := by
  simp only [stuff_eq_flatMap, List.flatMap_append]

theorem stuff_singleton (c : Byte) : stuff [c] = escCksum c := rfl

/-- An ESC whose partner is no ESC stops the walk at once. -/
theorem awareFrom_ne_found {p q : Nat} {x : Byte} {l : List Byte} (hx : x ≠ Config.esc) (hpq : p < q) :
    awareFrom p (Config.esc :: x :: l) ≠ .found q := by
  by_cases hetx : x = Config.etx
  · rw [hetx, awareFrom_etx]
    exact fun h => absurd (ScanResult.found.inj h) (Nat.ne_of_lt hpq)
  · rw [awareFrom_stray hetx hx]
    exact ScanResult.noConfusion

/-- In a head without an escape pair an ESC stops the aware walk, or takes the first ESC of the doubled checksum as its partner, and the
end marker behind the span is not reached. -/
theorem not_mem_of_awareFrom_found {h : List Byte} {c : Byte} (hno : NoPair h Config.esc Config.esc 0) :
    ∀ p, awareFrom p (h ++ escCksum c ++ [Config.esc, Config.etx]) = .found (p + (h ++ escCksum c).length) → Config.esc ∉ h := by
  induction h with
  | nil => simp
  | cons a h ih =>
    intro p hscan
    obtain ⟨hpair, hno⟩ := (noPair_cons _ _ _ _).1 hno
    have hlt : p < p + (a :: h ++ escCksum c).length := by simp
    by_cases ha : a = Config.esc
    · subst ha
      exfalso
      cases h with
      | nil =>
        by_cases hc : c = Config.esc
        · subst hc
          have hwait : awareFrom p ([Config.esc] ++ escCksum Config.esc ++ [Config.esc, Config.etx]) = .wait := rfl
          rw [hwait] at hscan
          cases hscan
        · rw [escCksum_of_ne hc] at hscan hlt
          exact awareFrom_ne_found hc hlt hscan
      | cons b h => exact awareFrom_ne_found (fun hb => hpair ⟨rfl, by rw [hb]; rfl⟩) hlt hscan
    · rw [List.cons_append, List.cons_append, awareFrom_data ha] at hscan
      refine List.not_mem_cons_of_ne_of_not_mem (Ne.symm ha) (ih hno (p + 1) ?_)
      rw [hscan, List.length_cons, Nat.add_comm _ 1, Nat.add_assoc]

/-- The round trip of R140, taken apart: the end scan stops at the frame's end marker, and the span's bytes carry the message. -/
theorem roundTrip_iff {s : State} {m : Request} {sp : List Byte} (hbuf : s.buf = [])
    (hsp : encodeSpan s.params (encodeHead m) = sp) :
    exec (.feed (wireFrame s.params m)) s =
        .next { s with st := .searching, events := s.events ++ [.msgDelivered (messageOf m)] } ↔
      payloadScan s.params (sp ++ [Config.esc, Config.etx]) = .found (sp.length + 2) ∧
        frameEvent (destuff sp) = .msgDelivered (messageOf m) := by
  obtain ⟨r, rfl⟩ : ∃ r, sp = Config.typeOut :: r := by
    rw [← hsp, encodeSpan]
    split
    · exact ⟨_, rfl⟩
    · exact ⟨_, rfl⟩
  rw [wireFrame, hsp, exec_feed, Host.Outcome.next.injEq, feed_delivers_iff hbuf rfl, wholeFrame_markers rfl, spanOf_markers]

/-- A span that is stuffed whole reads back in the aware scan. -/
theorem payloadScan_aware_stuff {p : Params} (h : p.escAwareScan = true) (x : List Byte) :
    payloadScan p (stuff x ++ [Config.esc, Config.etx]) = .found ((stuff x).length + 2) := by
  rw [payloadScan_aware h, awareFrom_stuff, awareFrom_etx, Nat.add_comm]

end Sys2Proof.Machine

namespace Sys2Proof.Proofs

open Sys2Proof.Machine

/-- Settles O51: the aware walk passes the stuffed span pair by pair, and DESTUFF gives it back. -/
theorem roundTripWithFullEscaping : Obligations.RoundTripWithFullEscaping := by
  intro s m w hall haware hbuf hle hw
  obtain rfl := eq_wireFrame_of_exec hle hw
  refine (roundTrip_iff hbuf (encodeSpan_stuffed hall _)).2 ⟨payloadScan_aware_stuff haware _, ?_⟩
  rw [destuff_stuff, frameEvent_encoded hle]

/-- Settles O52: DESTUFF gives the span back, so what counts is whether the naive scan meets an end marker in it. -/
theorem roundTripStuffedNaive : Obligations.RoundTripStuffedNaive := by
  intro s m w hall hnaive hbuf hle hw
  obtain rfl := eq_wireFrame_of_exec hle hw
  rw [roundTrip_iff hbuf (encodeSpan_stuffed hall _), payloadScan_naive_append_etx hnaive, noPair_stuff, destuff_stuff,
    and_iff_left (frameEvent_encoded hle)]

/-- Settles O53: the naive scan must meet no end marker in the span, and DESTUFF must leave the head alone. -/
theorem roundTripSourceBehaviour : Obligations.RoundTripSourceBehaviour := by
  intro s m w hnarrow hnaive hbuf hle hw
  obtain rfl := eq_wireFrame_of_exec hle hw
  have hspan : spanOf (wireFrame s.params m) = encodeHead m ++ escCksum (cksumCompute (encodeHead m)) := by
    rw [wireFrame, encodeSpan_narrow hnarrow, spanOf_markers]
  rw [roundTrip_iff hbuf (encodeSpan_narrow hnarrow _), payloadScan_naive_append_etx hnaive, frameEvent_destuffed_iff hle, hspan]

/-- Settles O54: without an ESC in H the span is the stuffed one; an ESC in H, where DESTUFF leaves H alone, keeps the aware walk from the
end marker. -/
theorem roundTripNarrowAware : Obligations.RoundTripNarrowAware := by
  intro s m w hnarrow haware hbuf hle hw
  obtain rfl := eq_wireFrame_of_exec hle hw
  rw [roundTrip_iff hbuf (encodeSpan_narrow hnarrow _)]
  refine ⟨fun ⟨hscan, hevent⟩ => ?_, fun hmem => ?_⟩
  · rw [payloadScan_aware haware, Nat.add_comm] at hscan
    exact not_mem_of_awareFrom_found ((frameEvent_destuffed_iff hle).1 hevent) 2 hscan
  · have hstuffed : encodeHead m ++ escCksum (cksumCompute (encodeHead m)) =
        stuff (encodeHead m ++ [cksumCompute (encodeHead m)]) := by
      rw [stuff_append, stuff_of_not_mem hmem, stuff_singleton]
    rw [hstuffed, destuff_stuff]
    exact ⟨payloadScan_aware_stuff haware _, frameEvent_encoded hle⟩

end Sys2Proof.Proofs
end

/-! ## 40_synchronizer.md section 6: chunks (R89) -/

section
namespace Sys2Proof.Machine

/-! ### More bytes behind the buffer, and fewer before its first start marker -/

/-- A pass that goes on does so whatever more bytes follow: all it reads has arrived. -/
theorem drainPass_bufAppend {s t : State} (h : drainPass s = .again t) (c : List Byte) :
    drainPass (s.bufAppend c) = .again (t.bufAppend c) := by
  have hlen : s.buf.length ≤ (s.bufAppend c).buf.length := by simp
  have hbyte : ∀ {k}, k + 3 < s.buf.length → byteAt (s.bufAppend c).buf (k + 2) = byteAt s.buf (k + 2) :=
    fun hlt => byteAt_append_left (Nat.lt_of_succ_lt hlt) c
  have hscan : ∀ {k}, k + 3 < s.buf.length → endScan s.params s.buf k ≠ .wait →
      endScan s.params (s.bufAppend c).buf k = endScan s.params s.buf k :=
    fun hlt => endScan_append c (by omega)
  cases passOutcome_of_eq h with
  | unrecognized hfirst hlt ht =>
    rw [drainPass_of_unrecognized (firstPair_append c hfirst) (by omega) (by rwa [hbyte hlt]), hbyte hlt]
    simp only [State.bufAppend, State.emit, State.bufDrop]
    rw [List.drop_append_of_le_length (by omega)]
  | abort hfirst hlt ht hend =>
    have hsame := hscan hlt (by rw [hend]; exact ScanResult.noConfusion)
    rw [(drainPass_of_recognized (firstPair_append c hfirst) (by omega) (by rwa [hbyte hlt])).2.1 _ (hsame.trans hend)]
    have := (endScan_abort hend).2.2.1
    simp only [State.bufAppend, State.emit, State.bufDrop]
    rw [List.drop_append_of_le_length (by omega)]
  | found hfirst hlt ht hend =>
    have hsame := hscan hlt (by rw [hend]; exact ScanResult.noConfusion)
    rw [(drainPass_of_recognized (firstPair_append c hfirst) (by omega) (by rwa [hbyte hlt])).2.2 _ (hsame.trans hend)]
    have := pairAt_lt (endScan_found hend).2
    simp only [State.bufAppend, State.emit, State.bufDrop, rxPipeline, slice]
    rw [List.drop_append_of_le_length (by omega), List.take_append_of_le_length (by omega)]

theorem firstPair_append_left {g b : List Byte} {x y : Byte} {k : Nat} (hg : ∀ j < g.length, ¬ PairAt (g ++ b) x y j)
    (h : FirstPair b x y 0 k) : FirstPair (g ++ b) x y 0 (g.length + k) := by
  obtain ⟨-, hk, hmin⟩ := h
  refine ⟨Nat.zero_le _, (pairAt_append_right g b k).2 hk, fun j hj _ hp => ?_⟩
  by_cases hlt : j < g.length
  · exact hg j hlt hp
  · obtain ⟨i, rfl⟩ : ∃ i, j = g.length + i := ⟨j - g.length, by omega⟩
    exact hmin i (by omega) (Nat.zero_le i) ((pairAt_append_right g b i).1 hp)

theorem byteAt_append_right (g b : List Byte) (i : Nat) : byteAt (g ++ b) (g.length + i) = byteAt b i := by
  simp [byteAt, List.getD_eq_getElem?_getD, List.getElem?_append_right]

theorem slice_append_right (g b : List Byte) (i j : Nat) : slice (g ++ b) (g.length + i) (g.length + j) = slice b i j := by
  rw [slice, slice, Nat.add_assoc, List.take_length_add_append, ← List.drop_drop, List.drop_left]

/-- Bytes in which no start marker begins do not change the pass at the first start marker behind them. -/
theorem drainPass_behind {s : State} {g b : List Byte} {k : Nat} (hbuf : s.buf = g ++ b)
    (hg : ∀ j < g.length, ¬ PairAt (g ++ b) Config.esc Config.stx j) (hk : FirstPair b Config.esc Config.stx 0 k) :
    drainPass s = drainPass (s.bufDrop g.length) := by
  have hdrop : (s.bufDrop g.length).buf = b := by rw [State.bufDrop_buf, hbuf, List.drop_left]
  have hfirst : ∀ {k}, FirstPair (s.bufDrop g.length).buf Config.esc Config.stx 0 k →
      FirstPair s.buf Config.esc Config.stx 0 (g.length + k) := fun h => by
    rw [hdrop] at h
    rw [hbuf]
    exact firstPair_append_left hg h
  have hlen : s.buf.length = g.length + (s.bufDrop g.length).buf.length := by rw [hdrop, hbuf, List.length_append]
  have hbyte : ∀ k, byteAt s.buf (g.length + k + 2) = byteAt (s.bufDrop g.length).buf (k + 2) := fun k => by
    rw [hdrop, hbuf, Nat.add_assoc, byteAt_append_right]
  have hscan : ∀ k, endScan s.params s.buf (g.length + k) =
      (endScan (s.bufDrop g.length).params (s.bufDrop g.length).buf k).shift g.length := fun k => by
    rw [hdrop, hbuf, endScan_behind]
    rfl
  have hcase := drainPass_outcome (s.bufDrop g.length)
  generalize drainPass (s.bufDrop g.length) = r at hcase ⊢
  cases hcase with
  | noMarker hno =>
    rw [hdrop] at hno
    exact absurd hk.2.1 (noPair_def.1 hno k)
  | header hf hle =>
    rw [drainPass_of_short (hfirst hf) (by omega)]
    simp only [State.bufDrop, State.setFsm, List.drop_drop]
  | unrecognized hf hlt ht =>
    rw [drainPass_of_unrecognized (hfirst hf) (by omega) (by rwa [hbyte]), hbyte]
    simp only [State.bufDrop, State.emit, List.drop_drop, Nat.add_assoc]
  | wait hf hlt ht hend =>
    rw [(drainPass_of_recognized (hfirst hf) (by omega) (by rwa [hbyte])).1 (by rw [hscan, hend]; rfl)]
    simp only [State.bufDrop, State.setFsm, List.drop_drop]
  | @abort k q hf hlt ht hend =>
    rw [(drainPass_of_recognized (hfirst hf) (by omega) (by rwa [hbyte])).2.1 (g.length + q)
      (by rw [hscan, hend, ScanResult.shift, Nat.add_comm]), Nat.add_sub_add_left]
    simp only [State.bufDrop, State.emit, List.drop_drop]
  | @found k e hf hlt ht hend =>
    have hslice : slice s.buf (g.length + k) (g.length + e + 1) = slice (s.bufDrop g.length).buf k (e + 1) := by
      rw [hdrop, hbuf, Nat.add_assoc, slice_append_right]
    rw [(drainPass_of_recognized (hfirst hf) (by omega) (by rwa [hbyte])).2.2 (g.length + e)
      (by rw [hscan, hend, ScanResult.shift, Nat.add_comm]), hslice]
    simp only [State.bufDrop, rxPipeline, State.emit, List.drop_drop, Nat.add_assoc]

theorem drain_behind {s : State} {g b : List Byte} {k : Nat} (hbuf : s.buf = g ++ b)
    (hg : ∀ j < g.length, ¬ PairAt (g ++ b) Config.esc Config.stx j) (hk : FirstPair b Config.esc Config.stx 0 k) :
    drain s = drain (s.bufDrop g.length) := by
  rw [drain_eq s, drain_eq (s.bufDrop g.length), drainPass_behind hbuf hg hk]

/-! ### States that differ in FRAMING_ERRORs only -/

/-- The events of a state but for its FRAMING_ERRORs. -/
def State.eventsButFraming (s : State) : List Event := s.events.filter (!·.isFramingError)

/-- What R89 compares of two states under the same parameters. -/
structure SameButFraming (s t : State) : Prop where
  params : s.params = t.params
  buf : s.buf = t.buf
  st : s.st = t.st
  events : s.eventsButFraming = t.eventsButFraming

theorem SameButFraming.refl (s : State) : SameButFraming s s := ⟨rfl, rfl, rfl, rfl⟩

theorem SameButFraming.trans {s t u : State} (h : SameButFraming s t) (h' : SameButFraming t u) : SameButFraming s u :=
  ⟨h.params.trans h'.params, h.buf.trans h'.buf, h.st.trans h'.st, h.events.trans h'.events⟩

theorem SameButFraming.symm {s t : State} (h : SameButFraming s t) : SameButFraming t s :=
  ⟨h.params.symm, h.buf.symm, h.st.symm, h.events.symm⟩

theorem sameButFraming_drain {s t : State} (hparams : s.params = t.params) (hbuf : s.buf = t.buf)
    (hevents : s.eventsButFraming = t.eventsButFraming) : SameButFraming (drain s) (drain t) := by
  obtain ⟨new, b, v, hs, ht⟩ := drain_congr s t hparams hbuf
  rw [hs, ht]
  refine ⟨hparams, rfl, rfl, ?_⟩
  simp only [State.eventsButFraming, List.filter_append] at hevents ⊢
  rw [hevents]

theorem SameButFraming.drain_bufAppend {s t : State} (h : SameButFraming s t) (c : List Byte) :
    SameButFraming (drain (s.bufAppend c)) (drain (t.bufAppend c)) :=
  sameButFraming_drain h.params (by rw [State.bufAppend_buf, State.bufAppend_buf, h.buf]) h.events

/-- DRAIN of bytes without a start marker, but for the FRAMING_ERROR. -/
theorem drain_of_noPair_butFraming {s : State} (h : NoPair s.buf Config.esc Config.stx 0) :
    (drain s).buf = keptTail s.params s.buf ∧ (drain s).st = .searching ∧
      (drain s).eventsButFraming = s.eventsButFraming := by
  rw [drain_of_stop (drainPass_of_noPair h), noMarker_eq]
  refine ⟨rfl, rfl, ?_⟩
  simp only [State.eventsButFraming, State.setFsm_events, List.filter_append]
  split <;> simp [Event.isFramingError]

theorem keptTail_suffix (p : Params) (b : List Byte) : ∃ g, b = g ++ keptTail p b := by
  rw [keptTail]
  split
  · next h =>
    obtain ⟨g, rfl⟩ := List.getLast?_eq_some_iff.1 h.2
    exact ⟨g, rfl⟩
  · exact ⟨b, (List.append_nil b).symm⟩

/-- Where an ESC is kept, no start marker begins in what NO_MARKER discards, whatever bytes follow. -/
theorem no_marker_in_discarded {p : Params} {b g : List Byte} (hkeep : p.keepTailEsc = true)
    (hno : NoPair b Config.esc Config.stx 0) (hg : b = g ++ keptTail p b) (c : List Byte) :
    ∀ j < g.length, ¬ PairAt (b ++ c) Config.esc Config.stx j := by
  intro j hj hp
  have hlen : b.length = g.length + (keptTail p b).length := by rw [← List.length_append, ← hg]
  by_cases hlt : j + 1 < b.length
  · exact noPair_def.1 hno j ((pairAt_append_left c hlt).1 hp)
  · have hlast : b.getLast? = some Config.esc := by
      rw [List.getLast?_eq_getElem?, show b.length - 1 = j by omega, ← hp.1, List.getElem?_append_left (by omega)]
    have : keptTail p b = [Config.esc] := if_pos ⟨hkeep, hlast⟩
    rw [this, List.length_singleton] at hlen
    omega

/-- More bytes make the same of what NO_MARKER kept as of the bytes it kept it from. -/
theorem keptTail_append (p : Params) (b c : List Byte) : keptTail p (keptTail p b ++ c) = keptTail p (b ++ c) := by
  cases c with
  | nil => rw [List.append_nil, List.append_nil, keptTail_of_bufferShape (bufferShape_keptTail p b)]
  | cons a c => rw [keptTail, List.getLast?_append_cons, keptTail, List.getLast?_append_cons]

/-- A stopped pass forgets nothing that later bytes could complete, where an ESC is kept. -/
theorem sameButFraming_of_stop {s t : State} (hkeep : s.params.keepTailEsc = true) (h : drainPass s = .stop t) (c : List Byte) :
    SameButFraming (drain (t.bufAppend c)) (drain (s.bufAppend c)) := by
  have hpending : ∀ {k v}, FirstPair s.buf Config.esc Config.stx 0 k →
      SameButFraming (drain (State.bufAppend { s with buf := s.buf.drop k, st := v } c)) (drain (s.bufAppend c)) := by
    intro k v hfirst
    have hlt := pairAt_lt hfirst.2.1
    have hsplit : (s.bufAppend c).buf = s.buf.take k ++ (s.buf.drop k ++ c) := by
      rw [← List.append_assoc, List.take_append_drop]
      rfl
    have hlen : (s.buf.take k).length = k := List.length_take_of_le (by omega)
    have hmark : ((s.buf.drop k) ++ c).take 2 = [Config.esc, Config.stx] := by rw [drop_of_pairAt hfirst.2.1]; rfl
    rw [drain_behind hsplit (fun j hj => ?_) (firstPair_zero_of_take_two hmark), hlen]
    · simp only [State.bufDrop, State.bufAppend]
      rw [List.drop_append_of_le_length (by omega)]
      exact sameButFraming_drain rfl rfl rfl
    · rw [← hsplit]
      exact (firstPair_append c hfirst).2.2 j (by omega) (Nat.zero_le j)
  cases passOutcome_of_eq h with
  | header hfirst => exact hpending hfirst
  | wait hfirst => exact hpending hfirst
  | noMarker hno =>
    obtain ⟨hbuf, -, hevents⟩ := drain_of_noPair_butFraming hno
    rw [drain_of_stop h] at hbuf hevents
    obtain ⟨g, hg⟩ := keptTail_suffix s.params s.buf
    have hsplit : (s.bufAppend c).buf = g ++ (keptTail s.params s.buf ++ c) := by
      rw [← List.append_assoc, ← hg]
      rfl
    have hparams : (noMarker s).params = s.params := by rw [noMarker_eq]
    have hdiscarded := no_marker_in_discarded hkeep hno hg c
    cases hscan : startScan (keptTail s.params s.buf ++ c) with
    | some k =>
      rw [drain_behind hsplit (hsplit ▸ hdiscarded) (startScan_eq_some.1 hscan)]
      refine sameButFraming_drain hparams ?_ hevents
      rw [State.bufDrop_buf, hsplit, List.drop_left, State.bufAppend_buf, hbuf]
    | none =>
      have hkept := startScan_eq_none.1 hscan
      have hwhole : NoPair (s.bufAppend c).buf Config.esc Config.stx 0 := noPair_def.2 fun j hp => by
        by_cases hj : j < g.length
        · exact hdiscarded j hj hp
        · obtain ⟨i, rfl⟩ : ∃ i, j = g.length + i := ⟨j - g.length, by omega⟩
          rw [hsplit] at hp
          exact noPair_def.1 hkept i ((pairAt_append_right _ _ i).1 hp)
      obtain ⟨hbuf₁, hst₁, hevents₁⟩ := drain_of_noPair_butFraming (s := ((noMarker s).setFsm .searching).bufAppend c)
        (by rw [State.bufAppend_buf, hbuf]; exact hkept)
      obtain ⟨hbuf₂, hst₂, hevents₂⟩ := drain_of_noPair_butFraming hwhole
      refine ⟨?_, ?_, hst₁.trans hst₂.symm, hevents₁.trans (hevents.trans hevents₂.symm)⟩
      · rw [drain_params, drain_params]
        exact hparams
      · rw [hbuf₁, hbuf₂, State.bufAppend_buf, hbuf, State.bufAppend_params, State.setFsm_params, hparams]
        exact keptTail_append s.params s.buf c

/-- A DRAIN between two parts of the stream makes no difference but for FRAMING_ERRORs, where an ESC is kept (R89). -/
theorem sameButFraming_drain_between (s : State) (hkeep : s.params.keepTailEsc = true) (c : List Byte) :
    SameButFraming (drain ((drain s).bufAppend c)) (drain (s.bufAppend c)) := by
  induction s using drain_induction with
  | stop s t h =>
    rw [drain_of_stop h]
    exact sameButFraming_of_stop hkeep h c
  | again s t h ih =>
    rw [drain_of_again h, drain_of_again (drainPass_bufAppend h c)]
    exact ih (by rwa [(drainPass_again h).2])

theorem feed_of_unbounded {s : State} (h : s.params.bufCap = none) (c : List Byte) : feed c s = drain (s.bufAppend c) :=
  feed_of_drain rfl (fits_eq_true.2 fun n hn => by rw [h] at hn; cases hn)

theorem feedAll_concat (cs : List (List Byte)) (c : List Byte) (s : State) : feedAll (cs ++ [c]) s = feed c (feedAll cs s) := by
  rw [feedAll, List.foldl_append]
  rfl

/-- Chunks make the same of a settled state as their bytes in one DRAIN, but for FRAMING_ERRORs. -/
theorem sameButFraming_feedAll {s : State} (hkeep : s.params.keepTailEsc = true) (hcap : s.params.bufCap = none)
    (hs : s.settled = true) (cs : List (List Byte)) : SameButFraming (feedAll cs s) (drain (s.bufAppend cs.flatten)) := by
  induction cs using List.reverseRecOn with
  | nil =>
    have hnil : s.bufAppend [].flatten = s := by simp [State.bufAppend]
    rw [hnil, drain_of_bufferShape ((settled_iff s).1 hs).1]
    exact .refl s
  | append_singleton cs c ih =>
    have hparams : (feedAll cs s).params = s.params := ih.params.trans (drain_params _)
    have hflat : s.bufAppend (cs ++ [c]).flatten = (s.bufAppend cs.flatten).bufAppend c := by simp [State.bufAppend]
    rw [feedAll_concat, feed_of_unbounded (by rwa [hparams]), hflat]
    exact (ih.drain_bufAppend c).trans (sameButFraming_drain_between (s.bufAppend cs.flatten) hkeep c)

end Sys2Proof.Machine

namespace Sys2Proof.Proofs

open Sys2Proof.Machine

/-- Settles O22: each chunking makes the same of the state as one DRAIN of the whole stream; a lone ESC that is not kept is discarded. -/
theorem feedChunkingIndependence : Obligations.FeedChunkingIndependence := by
  refine ⟨fun s cs ds hkeep hcap hs hflat => ?_, fun s hkeep hbuf => ?_⟩
  · have hcs := sameButFraming_feedAll hkeep hcap hs cs
    rw [hflat] at hcs
    obtain ⟨-, hbuf, hst, hevents⟩ := hcs.trans (sameButFraming_feedAll hkeep hcap hs ds).symm
    exact ⟨hbuf, hst, hevents⟩
  · have hone : (s.bufAppend [Config.esc]).buf = [Config.esc] := by rw [State.bufAppend_buf, hbuf]; rfl
    have htail : keptTail s.params [Config.esc] = [] := by simp [keptTail, hkeep]
    have hno : NoPair [Config.esc] Config.esc Config.stx 0 := noPair_def.2 fun j hp => by simpa using pairAt_lt hp
    have hdrain := drain_of_noPair (s := s.bufAppend [Config.esc]) (by rwa [hone]) (by rw [hone, State.bufAppend_params, htail]; decide)
    rw [hone, State.bufAppend_params, htail] at hdrain
    rw [exec_feed, feed_of_drain hdrain (fits_zero _)]
    simp [State.bufAppend, hbuf]

end Sys2Proof.Proofs
end

/-! ## 40_synchronizer.md section 6: garbage and then a clean frame, in any chunks (R95, R96) -/

section
namespace Sys2Proof.Machine

/-! ### The stream of garbage and a frame -/

/-- A clean frame is one whole frame that carries its message. -/
theorem wholeFrame_of_clean {p : Params} {w : List Byte} {m : Message} (h : CleanFrame p w m) :
    WholeFrame p w ∧ frameEvent (destuff (spanOf w)) = .msgDelivered m := by
  obtain ⟨hmark, hevents, hbuf⟩ := h
  have hshape := ((settled_iff _).1 (feed_settled w (State.resetWith p))).1
  have hempty : bufferShape (feed w (State.resetWith p)).params (feed w (State.resetWith p)).buf .searching = true :=
    (bufferShape_searching _ _).2 (.inl hbuf)
  refine (feed_delivers_iff (s := State.resetWith p) rfl hmark).1 ?_
  rw [feed_frame, hevents, hbuf, bufferShape_inj hshape hempty]
  rfl

/-- A proper part of a whole frame, its start marker included, waits for the rest. -/
theorem bufferShape_of_part {p : Params} {w u r : List Byte} (hw : WholeFrame p w) (hu : u ++ r = w) (hr : r ≠ [])
    (hmark : u.take 2 = [Config.esc, Config.stx]) : ∃ v, bufferShape p u v = true := by
  obtain ⟨-, -, ht, hends⟩ := hw
  have hlen : u.length + r.length = w.length := by rw [← hu, List.length_append]
  have hrpos := List.length_pos_iff.2 hr
  have htwo := length_of_take_two hmark
  by_cases hshort : u.length ≤ 3
  · exact ⟨.headerPending, (bufferShape_headerPending p u).2 ⟨hmark, hshort⟩⟩
  refine ⟨.payloadPending, (bufferShape_payloadPending p u).2 ⟨hmark, by omega, ?_, ?_⟩⟩
  · rwa [← hu, byteAt_append_left (by omega)] at ht
  · by_contra hsettled
    rw [← hu, endScan_append r htwo hsettled] at hends
    have := pairAt_lt (endScan_found hends).2
    rw [List.length_append] at this
    omega

theorem noFrameStart_suffix {g g' : List Byte} (h : NoFrameStart g) (hsuffix : g' <:+ g) : NoFrameStart g' := by
  obtain ⟨a, rfl⟩ := hsuffix
  intro i hi hp
  have := h (a.length + i) (by rw [List.length_append]; omega) ((pairAt_append_right a g' i).2 hp)
  rwa [Nat.add_assoc, List.getElem?_append_right (Nat.le_add_right _ _), Nat.add_sub_cancel_left] at this

/-- A start marker that begins in the garbage has no recognised type behind it, in the frame's first byte neither. -/
theorem type_in_garbage {g w : List Byte} {k : Nat} (hg : NoFrameStart g) (hmark : PairAt w Config.esc Config.stx 0)
    (hk : k < g.length) (hp : PairAt (g ++ w) Config.esc Config.stx k) : isRecognized (byteAt (g ++ w) (k + 2)) = false := by
  have hesc : (g ++ w)[g.length]? = some Config.esc := by
    rw [List.getElem?_append_right le_rfl, Nat.sub_self]
    exact hmark.1
  by_cases h1 : k + 1 = g.length
  · rw [← h1] at hesc
    exact absurd (Option.some.inj (hesc.symm.trans hp.2)) (by decide)
  by_cases h2 : k + 2 = g.length
  · rw [← h2] at hesc
    rw [byteAt_of_getElem? hesc]
    rfl
  · have hall := hg k hk ((pairAt_append_left w (by omega)).1 hp)
    rw [List.getElem?_eq_getElem (by omega), Option.all_some, Bool.not_eq_true'] at hall
    rwa [byteAt_of_getElem? (List.getElem?_eq_some_iff.2 ⟨by rw [List.length_append]; omega, List.getElem_append_left (by omega)⟩)]

theorem drop_stream {a x g w : List Byte} (h : a ++ x = g ++ w) (hle : a.length ≤ g.length) : x = g.drop a.length ++ w := by
  rw [← List.drop_append_of_le_length hle, ← h, List.drop_left]

/-! ### What DRAIN makes of a part of the stream -/

/-- Events that report garbage: no frame's, and none where there was no garbage. -/
structure ReportsGarbage (g : List Byte) (new : List Event) : Prop where
  noFrame : new.filter Event.fromPipeline = []
  none : g = [] → new = []

theorem ReportsGarbage.nil (g : List Byte) : ReportsGarbage g [] := ⟨rfl, fun _ => rfl⟩

theorem ReportsGarbage.append {g g' : List Byte} {a b : List Event} (ha : ReportsGarbage g a) (hb : ReportsGarbage g' b)
    (hsuffix : g' <:+ g) : ReportsGarbage g (a ++ b) := by
  refine ⟨by rw [List.filter_append, ha.noFrame, hb.noFrame]; rfl, fun hg => ?_⟩
  subst hg
  rw [ha.none rfl, hb.none (List.suffix_nil.1 hsuffix)]
  rfl

/-- What arrived of the stream `g ++ w` has made of `s`, with `r` still to come: the rest of the garbage and of the frame `w` stands in the
buffer, or the frame's event `e` is the last and the buffer is empty. -/
inductive Received (g w r : List Byte) (e : Event) (s : State) : State → Prop where
  | awaits {g' b : List Byte} (v : Fsm) {new : List Event} (hrest : r ≠ []) (hstream : b ++ r = g' ++ w) (hsuffix : g' <:+ g)
    (hnew : ReportsGarbage g new) : Received g w r e s { s with buf := b, st := v, events := s.events ++ new }
  | delivered {pre : List Event} (hrest : r = []) (hpre : ReportsGarbage g pre) :
    Received g w r e s { s with buf := [], st := .searching, events := s.events ++ (pre ++ [e]) }

/-- What was received behind a part of the stream was received behind the whole. -/
theorem Received.trans {g g' w r b : List Byte} {e : Event} {s u : State} {v : Fsm} {new : List Event}
    (h : Received g' w r e { s with buf := b, st := v, events := s.events ++ new } u) (hsuffix : g' <:+ g)
    (hnew : ReportsGarbage g new) : Received g w r e s u := by
  cases h with
  | awaits v' hrest hstream hsuffix' hnew' =>
    rw [List.append_assoc]
    exact .awaits v' hrest hstream (hsuffix'.trans hsuffix) (hnew.append hnew' hsuffix)
  | delivered hrest hpre =>
    rw [List.append_assoc, ← List.append_assoc new]
    exact .delivered hrest (hnew.append hpre hsuffix)

section
variable {s : State} {g w r : List Byte} (hw : WholeFrame s.params w) (hstream : s.buf ++ r = g ++ w)
include hw hstream

theorem pairAt_frame : PairAt (s.buf ++ r) Config.esc Config.stx g.length := by
  rw [hstream]
  exact (pairAt_append_right g w 0).2 (firstPair_zero_of_take_two hw.mark).2.1

/-- Without a start marker in the buffer at most the frame's first byte has arrived, which is kept where no cut may fall behind it. -/
theorem received_of_noPair (hcut : s.params.keepTailEsc = false → r.length + 1 ≠ w.length)
    (hno : NoPair s.buf Config.esc Config.stx 0) (e : Event) : Received g w r e s (drain s) := by
  have hlen : s.buf.length + r.length = g.length + w.length := by rw [← List.length_append, hstream, List.length_append]
  have hheader := hw.header
  have hframe := pairAt_frame hw hstream
  have hfew : s.buf.length ≤ g.length + 1 := by
    by_contra hmany
    exact noPair_def.1 hno _ ((pairAt_append_left r (by omega)).1 hframe)
  obtain ⟨a, ha⟩ := keptTail_suffix s.params s.buf
  have halen : s.buf.length = a.length + (keptTail s.params s.buf).length := by rw [← List.length_append, ← ha]
  have hdiscard : a.length ≤ g.length := by
    by_cases hpart : s.buf.length ≤ g.length
    · omega
    have hkeep : s.params.keepTailEsc = true := by
      by_contra hkeep
      exact hcut (Bool.eq_false_iff.2 hkeep) (by omega)
    have hlast : s.buf.getLast? = some Config.esc := by
      rw [List.getLast?_eq_getElem?, show s.buf.length - 1 = g.length by omega, ← hframe.1, List.getElem?_append_left (by omega)]
    have htail : keptTail s.params s.buf = [Config.esc] := if_pos ⟨hkeep, hlast⟩
    rw [htail, List.length_singleton] at halen
    omega
  rw [drain_of_stop (drainPass_of_noPair hno), noMarker_eq]
  refine .awaits .searching (fun hr => ?_) (drop_stream (a := a) ?_ hdiscard) (List.drop_suffix _ g) ⟨?_, fun hg => if_neg ?_⟩
  · rw [hr, List.length_nil] at hlen
    omega
  · rw [← List.append_assoc, ← ha, hstream]
  · split <;> rfl
  · rw [hg, List.length_nil] at hdiscard
    omega

/-- At the frame, DRAIN delivers it or waits for the rest of it. -/
theorem received_at_frame (hk : FirstPair s.buf Config.esc Config.stx 0 g.length) :
    Received g w r (frameEvent (destuff (spanOf w))) s (drain s) := by
  have hlt := pairAt_lt hk.2.1
  have hsplit : s.buf = g ++ s.buf.drop g.length := by
    have htake : s.buf.take g.length = g := by
      rw [← List.take_append_of_le_length (l₂ := r) (by omega), hstream, List.take_left]
    conv_lhs => rw [← List.take_append_drop g.length s.buf, htake]
  have hrest : s.buf.drop g.length ++ r = w := by
    rw [← List.drop_append_of_le_length (by omega), hstream, List.drop_left]
  have hmark : (s.buf.drop g.length).take 2 = [Config.esc, Config.stx] := by rw [drop_of_pairAt hk.2.1]; rfl
  rw [drain_behind hsplit (fun j hj => hsplit ▸ hk.2.2 j hj (Nat.zero_le j)) (firstPair_zero_of_take_two hmark)]
  by_cases hr : r = []
  · rw [hr, List.append_nil] at hrest
    rw [drain_of_wholeFrame (s := s.bufDrop g.length) (by rw [State.bufDrop_buf, hrest]; exact hw), State.bufDrop_buf, hrest]
    exact .delivered (pre := []) hr (.nil g)
  · obtain ⟨v, hshape⟩ := bufferShape_of_part hw hrest hr hmark
    have hsame : (s.bufDrop g.length).setFsm v = { s with buf := s.buf.drop g.length, st := v, events := s.events ++ [] } := by
      rw [List.append_nil]
      rfl
    rw [drain_of_shape (s := s.bufDrop g.length) hshape, hsame]
    exact .awaits v hr (g' := []) hrest List.nil_suffix (.nil g)

end

/-- DRAIN of a part of the stream: the garbage goes, unrecognised start markers one by one, and the frame is found where it begins. -/
theorem received_drain {p : Params} {w r : List Byte} (hw : WholeFrame p w)
    (hcut : p.keepTailEsc = false → r.length + 1 ≠ w.length) (g : List Byte) :
    ∀ s : State, s.params = p → NoFrameStart g → s.buf ++ r = g ++ w →
      Received g w r (frameEvent (destuff (spanOf w))) s (drain s) := by
  induction hn : g.length using Nat.strong_induction_on generalizing g with
  | _ n ih =>
    subst hn
    rintro s rfl hg hstream
    have hlen : s.buf.length + r.length = g.length + w.length := by rw [← List.length_append, hstream, List.length_append]
    have hheader := hw.header
    cases hscan : startScan s.buf with
    | none => exact received_of_noPair hw hstream hcut (startScan_eq_none.1 hscan) _
    | some k =>
      have hk := startScan_eq_some.1 hscan
      have hlt := pairAt_lt hk.2.1
      have hle : k ≤ g.length := by
        by_contra hgt
        exact hk.2.2 g.length (by omega) (Nat.zero_le _) ((pairAt_append_left r (by omega)).1 (pairAt_frame hw hstream))
      obtain rfl | hin := Nat.eq_or_lt_of_le hle
      · exact received_at_frame hw hstream hk
      by_cases hshort : s.buf.length ≤ k + 3
      · have hsame : { s with buf := s.buf.drop k, st := .headerPending } =
            { s with buf := s.buf.drop k, st := .headerPending, events := s.events ++ [] } := by rw [List.append_nil]
        rw [drain_of_header hk hshort, hsame]
        refine .awaits .headerPending (fun hr => ?_) ?_ (List.drop_suffix k g) (.nil g)
        · rw [hr, List.length_nil] at hlen
          omega
        · rw [← List.drop_append_of_le_length (by omega), hstream, List.drop_append_of_le_length hle]
      · have htype : isRecognized (byteAt s.buf (k + 2)) = false := by
          rw [← byteAt_append_left (by omega) r, hstream]
          refine type_in_garbage hg (firstPair_zero_of_take_two hw.mark).2.1 hin ?_
          rw [← hstream]
          exact (pairAt_append_left r hlt).2 hk.2.1
        rw [drain_of_again (drainPass_of_unrecognized hk (by omega) htype)]
        have hsuffix := List.drop_suffix (k + 1) g
        refine Received.trans (ih _ ?_ (g.drop (k + 1)) rfl _ rfl (noFrameStart_suffix hg hsuffix) ?_) hsuffix ⟨rfl, fun hnil => ?_⟩
        · rw [List.length_drop]
          omega
        · show s.buf.drop (k + 1) ++ r = g.drop (k + 1) ++ w
          rw [← List.drop_append_of_le_length (by omega), hstream, List.drop_append_of_le_length (by omega)]
        · rw [hnil] at hin
          exact absurd hin (Nat.not_lt_zero k)

/-! ### The stream in chunks -/

/-- The frame's last byte is never in the buffer after a DRAIN. -/
theorem Received.length_buf_le {g w r : List Byte} {e : Event} {s t : State} (h : Received g w r e s t) :
    t.buf.length ≤ g.length + w.length - 1 := by
  cases h with
  | awaits v hrest hstream hsuffix =>
    have hlen := congrArg List.length hstream
    rw [List.length_append, List.length_append] at hlen
    have := List.length_pos_iff.2 hrest
    have := hsuffix.length_le
    dsimp only
    omega
  | delivered => exact Nat.zero_le _

theorem noCutAt_of_concat {cs : List (List Byte)} {c : List Byte} {n : Nat} (h : NoCutAt (cs ++ [c]) n) :
    NoCutAt cs n ∧ (cs ++ [c]).flatten.length ≠ n := by
  refine ⟨fun k hk => ?_, ?_⟩
  · have := h k (by rw [List.length_append]; omega)
    rwa [List.take_append_of_le_length hk] at this
  · have := h _ le_rfl
    rwa [List.take_length] at this

/-- What the chunks that have arrived make of the state, whatever they cut but the frame's start marker where no ESC is kept. -/
theorem received_feedAll {s : State} {g w : List Byte} (hw : WholeFrame s.params w) (hg : NoFrameStart g) (hbuf : s.buf = [])
    (hfits : fits s.params (g.length + w.length - 1) = true) (cs : List (List Byte)) :
    ∀ r, cs.flatten ++ r = g ++ w → (s.params.keepTailEsc = false → NoCutAt cs (g.length + 1)) →
      Received g w r (frameEvent (destuff (spanOf w))) s (feedAll cs s) := by
  induction cs using List.reverseRecOn with
  | nil =>
    intro r hr _
    have hsame : feedAll [] s = { s with buf := [], st := s.st, events := s.events ++ [] } := by
      rw [List.append_nil, ← hbuf]
      rfl
    have hheader := hw.header
    rw [hsame]
    refine .awaits s.st (fun hnil => ?_) hr List.suffix_rfl (.nil g)
    rw [hnil] at hr
    have := congrArg List.length hr
    simp only [List.flatten_nil, List.append_nil, List.length_nil, List.length_append] at this
    omega
  | append_singleton cs c ih =>
    intro r hr hcut
    have hlen := congrArg List.length hr
    rw [List.length_append, List.length_append] at hlen
    have hcut' : s.params.keepTailEsc = false → r.length + 1 ≠ w.length := fun hkeep => by
      have := (noCutAt_of_concat (hcut hkeep)).2
      omega
    have hbefore := ih (c ++ r) (by rw [← hr]; simp) fun hkeep => (noCutAt_of_concat (hcut hkeep)).1
    rw [feedAll_concat]
    generalize feedAll cs s = t at hbefore ⊢
    cases hbefore with
    | @awaits g' b v new hrest hstream hsuffix hnew =>
      have hpart := received_drain hw hcut' g' { s with buf := b ++ c, st := v, events := s.events ++ new } rfl
        (noFrameStart_suffix hg hsuffix) (by rw [List.append_assoc]; exact hstream)
      have hdrain := hpart.trans hsuffix hnew
      have hfeed : feed c { s with buf := b, st := v, events := s.events ++ new } =
          drain { s with buf := b ++ c, st := v, events := s.events ++ new } :=
        feed_of_drain rfl (fits_mono hfits hdrain.length_buf_le)
      rwa [hfeed]
    | delivered hrest hpre =>
      obtain ⟨rfl, rfl⟩ := List.append_eq_nil_iff.1 hrest
      rw [feed_of_shape (b := []) (v := .searching) rfl ((bufferShape_searching _ _).2 (.inl rfl)) (fits_zero _)]
      exact .delivered rfl hpre

/-- The whole stream in chunks delivers the frame's message last, behind the reports of the garbage. -/
theorem feedAll_delivers {s : State} {g w : List Byte} {m : Message} {cs : List (List Byte)} (hbuf : s.buf = [])
    (hclean : CleanFrame s.params w m) (hg : NoFrameStart g) (hcs : cs.flatten = g ++ w)
    (hcut : s.params.keepTailEsc = false → NoCutAt cs (g.length + 1))
    (hfits : fits s.params (g.length + w.length - 1) = true) :
    ∃ pre, ReportsGarbage g pre ∧
      feedAll cs s = { s with st := .searching, events := s.events ++ (pre ++ [.msgDelivered m]) } := by
  obtain ⟨hw, hevent⟩ := wholeFrame_of_clean hclean
  have h := received_feedAll hw hg hbuf hfits cs [] (by rw [List.append_nil, hcs]) hcut
  rw [hevent] at h
  generalize feedAll cs s = t at h ⊢
  cases h with
  | awaits v hrest => exact absurd rfl hrest
  | delivered _ hpre => exact ⟨_, hpre, by rw [hbuf]⟩

end Sys2Proof.Machine

namespace Sys2Proof.Proofs

open Sys2Proof.Machine

/-- Settles O23: the garbage is reported without a frame, and the frame is found where it begins. -/
theorem resynchronizationAfterGarbage : Obligations.ResynchronizationAfterGarbage := by
  intro s g w m cs hbuf hclean hg hcs hcut hfits
  obtain ⟨pre, hpre, h⟩ := feedAll_delivers hbuf hclean hg hcs hcut (fits_mono hfits (Nat.sub_le _ _))
  exact ⟨_, h, by rw [List.filter_append, hpre.noFrame]; rfl⟩

/-- Settles O24: the stream of O23 without garbage, of which nothing is reported. -/
theorem splitDeliveryOfACleanFrame : Obligations.SplitDeliveryOfACleanFrame := by
  intro s w m cs hbuf hclean hcs hcut hfits
  have hnone : NoFrameStart [] := fun i hi => absurd hi (Nat.not_lt_zero i)
  obtain ⟨pre, hpre, h⟩ := feedAll_delivers (g := []) hbuf hclean hnone hcs hcut
    (by rwa [List.length_nil, Nat.zero_add])
  rw [h, hpre.none rfl, List.nil_append]

end Sys2Proof.Proofs
end
